-- ==== Sys2Proof/Word.lean ====
section
/-!
DEFINITION. The byte, the one cell of every register file and memory of the block (00_scope.md R9).
-/

namespace Sys2Proof

/-- A byte: 8 bits, value 0 to 255, bit 7 the most significant (00_scope.md R9). -/
abbrev Byte := BitVec 8

end Sys2Proof
end

