-- ==== Sys2Proof/Config.lean ====
section
/-!
DEFINITION. What an implementation fixes (00_scope.md R6) and the free values: bytes and results that no rule determines
(93_implementation_defined.md U3, U4, U9). A free value is an opaque constant with no body.
-/

namespace Sys2Proof

/-- `COLOR_ORDER`: the order of the three colour bytes in a record (43_wire_encoder.md R215). -/
inductive ColorOrder where
  | rgb
  | bgr
deriving DecidableEq, Repr

/-- The configuration of the block that is plain data (00_scope.md R6, 44_dataflow.md R242). With `N_SOURCES`, the number
of decoders a state holds, and the function `gamma_fn` it is the `Parameters` of Machine/Parameters.lean. -/
structure Config where
  /-- `COLOR_ORDER`, default `RGB` (43_wire_encoder.md R215). -/
  colorOrder : ColorOrder := .rgb
  /-- `accept_addr`, one bit per address, default all (44_dataflow.md R242). -/
  acceptAddr : BitVec 256 := BitVec.allOnes 256
  /-- `DIAG_LEVEL`, OPEN (43_wire_encoder.md R221; log 18). -/
  diagLevel : Byte
deriving DecidableEq, Repr

/-- `accept_addr addr` (44_dataflow.md R242). -/
def Config.accepts (cfg : Config) (addr : Byte) : Bool :=
  cfg.acceptAddr.getLsbD addr.toNat

/-- `PAY_CAP`: bytes in a payload buffer (00_scope.md R6). -/
def Config.payCap : Nat := 65536

/-- `PIX_BYTES`: bytes per pixel in a payload (00_scope.md R6). -/
def Config.pixBytes : Nat := 3

/-- `PIX_MAX`: the most pixels one frame carries and one encode takes (00_scope.md R6, 43_wire_encoder.md R211). -/
def Config.pixMax : Nat := 21845

/-- Cells of the `LUT` space: three tables of 256 (00_scope.md R6, 20_memory.md R60). -/
def Config.lutCap : Nat := 768

/-- `PRE_LEN`: zero bytes before the first pixel record (00_scope.md R6). -/
def Config.preLen : Nat := 4

/-- `REC_LEN`: bytes per pixel record (00_scope.md R6). -/
def Config.recLen : Nat := 4

/-- `OUT_CAP`: bytes in the output buffer (00_scope.md R6). -/
def Config.outCap : Nat := 87384

/-- `CTRL_TOP`: bits 7:6 of the control byte (00_scope.md R6, 30_encoding.md R97). -/
def Config.ctrlTop : BitVec 2 := 0b11#2

/-- `CMD_SET_PIXELS`: the one command acted on (00_scope.md R6). -/
def Config.cmdSetPixels : Byte := 1#8

/-- FREE VALUE (log 8): what header register `i` holds after a RESET, for the draw `seed` (70_reset_and_hazards.md R281). -/
opaque Config.unspecHdr (seed i : Nat) : Byte

/-- FREE VALUE (log 4): what cell `a` of a payload buffer reads as while nothing has written it since the reset of draw
`seed` (10_state.md R34, R35). -/
opaque Config.unspecPay (seed a : Nat) : Byte

/-- FREE VALUE (log 5): the byte a lookup of the unwritten table cell `a` gives, after the reset of draw `seed`
(93_implementation_defined.md U3). -/
opaque Config.unspecLut (seed a : Nat) : Byte

/-- FREE VALUE (log 9): the result `ok` of the serial write of draw `n` (43_wire_encoder.md R219). -/
opaque Config.serialOk (n : Nat) : Bool

end Sys2Proof
end

