-- ==== Sys2Proof/Syntax.lean ====
section
/-!
DEFINITION. The operations of the block and the two frame commands, one constructor per row of opcode_table.json
(30_encoding.md R100), and the form in which the outside presents an operation (R101).
-/

namespace Sys2Proof

/-- A pixel: three channel values, no identity beyond its position (00_scope.md R11). -/
structure Pixel where
  r : Byte
  g : Byte
  b : Byte
deriving DecidableEq, Repr

/-- One operation as the outside presents it: the bits of its word (30_encoding.md R101), most significant first, and
beside them the number of the decoder it is for, if one is given (R105). -/
structure OpWord where
  src : Option Nat
  bits : List Bool
deriving DecidableEq, Repr

/-- The rows of opcode_table.json. `src` is the number of the FD the operation is applied to (30_encoding.md R100). -/
inductive Instr where
  /-- `FD_TIMEOUT` (41_link_events.md R173). -/
  | fdTimeout (src : Nat)
  /-- `FD_OPEN` (41_link_events.md R170). -/
  | fdOpen (src : Nat)
  /-- `FD_BYTE(b)` (40_frame_decoder.md R130). -/
  | fdByte (src : Nat) (b : Byte)
  /-- `FD_CLOSE` (41_link_events.md R171). -/
  | fdClose (src : Nat)
  /-- `LUT_WRITE(c, v, val)` (42_gamma_lut.md R190). -/
  | lutWrite (c : BitVec 2) (v val : Byte)
  /-- `WE_ENCODE(n, px)`; the operand `n` is the length of `px` (43_wire_encoder.md R210). -/
  | weEncode (px : List Pixel)
  /-- `RESET` of one FD (`some`) or of the whole block (`none`, the spec's "all") (70_reset_and_hazards.md R280). -/
  | reset (src : Option Nat)
  /-- The frame command `SET_PIXELS(addr, len)` (40_frame_decoder.md R135). -/
  | setPixels (src : Nat) (addr : Byte) (len : BitVec 16)
  /-- The frame command `CMD_OTHER(addr, cmd, len)` (40_frame_decoder.md R136). -/
  | cmdOther (src : Nat) (addr cmd : Byte) (len : BitVec 16)
deriving DecidableEq, Repr

end Sys2Proof
end

