-- ==== Sys2Proof/Machine/State.lean ====
section
/-!
DEFINITION. The complete state of the block (10_state.md R20) as plain data, the output events (00_scope.md R10), the
reasons a step stops, and the state after reset (10_state.md R35).
-/

namespace Sys2Proof.Machine

/-- A memory space: address and byte pairs, addresses strictly rising. An address not listed holds no byte anything has
written since the last reset. -/
abbrev Mem := List Host.Cell

/-- The output events of the block (00_scope.md R10). -/
inductive Event where
  /-- `FrameDone(addr, cmd, len)` (40_frame_decoder.md R134). -/
  | frameDone (addr cmd : Byte) (len : BitVec 16)
  /-- `Pixels(addr, n, px)` (40_frame_decoder.md R135). -/
  | pixels (addr : Byte) (n : Nat) (px : List Pixel)
  /-- `Closed()` (41_link_events.md R171). -/
  | closed
  /-- `SerialWrite(buf, len)` (43_wire_encoder.md R218). -/
  | serialWrite (buf : List Byte) (len : Nat)
deriving DecidableEq, Repr

/-- The faults of the model. The first is recorded in `State.faults` and the step goes on, as
93_implementation_defined.md defines `fault` ("the step records a fault that is never cleared") and U3 applies it (log 5).
The other two are outcomes: its `stuck`, a step without a successor (U17; log 16, 24). -/
inductive Fault where
  /-- Recorded by WE_ENCODE for each lookup of a table entry never written since reset (42_gamma_lut.md R198). Safe:
  the byte used is a free value. -/
  | unwrittenLutEntry (c : BitVec 2) (v : Byte)
  /-- Raised by WE_ENCODE, alone or inside FD_BYTE or SET_PIXELS, when the serial writer never returns: the block makes no
  further step (70_reset_and_hazards.md R290, U17). Safe: nothing can be proved to follow it. -/
  | serialWriterBlocked
  /-- Raised by a completing FD_BYTE, or SET_PIXELS, whose handler never returns (60_exceptions.md R261, U17). Safe. -/
  | handlerBlocked
deriving DecidableEq, Repr

/-- Why an operation has no transition (`refuse`, 00_scope.md R10). All are safe: no claim about a run that contains
such a step can be proved. -/
inductive Refusal where
  /-- Raised by no meaning: the host's name for an instruction without one. Safe. -/
  | notModelled (mnemonic : String)
  /-- Raised by FD_BYTE while `conn = 0` (40_frame_decoder.md R130, U1). Safe. -/
  | notConnected
  /-- Raised by FD_OPEN while `conn = 1` (41_link_events.md R170, U2). Safe. -/
  | alreadyConnected
  /-- Raised by LUT_WRITE with `c = 3` (42_gamma_lut.md R191, U15). Safe. -/
  | noSuchTable
  /-- Raised by WE_ENCODE with `n > 21845` (43_wire_encoder.md R211, U16). Safe. -/
  | tooManyPixels
  /-- Raised by an operation on a decoder that does not exist (60_exceptions.md R251 E5, U14). Safe. -/
  | noSuchSource
  /-- Raised by the step on an operation word with a tag 0x6 to 0xE (30_encoding.md R101, U15). Safe. -/
  | reservedTag (tag : BitVec 4)
  /-- Raised by the step on bits that are no operation word (log 12). Safe. -/
  | malformedWord
deriving DecidableEq, Repr

/-- The serial writer outside the block, as far as it decides whether the block goes on (70_reset_and_hazards.md R290;
log 16). -/
inductive SerialWriter where
  /-- Every write returns: the duty of 60_exceptions.md R270. -/
  | dutiful
  /-- So many more writes return, and the one after them never does. -/
  | blocksAfter (writes : Nat)
deriving DecidableEq, Repr

/-- One frame decoder (the FD rows of 10_state.md R20). -/
structure FD where
  /-- `conn` (10_state.md R21). -/
  conn : Bool
  /-- `hdr[0]`, the address (10_state.md R22). -/
  hdrAddr : Byte
  /-- `hdr[1]`, the command (10_state.md R22). -/
  hdrCmd : Byte
  /-- `hdr[2]`, the high length byte (10_state.md R22). -/
  hdrLenHi : Byte
  /-- `hdr[3]`, the low length byte (10_state.md R22). -/
  hdrLenLo : Byte
  /-- `hdr_cnt` (10_state.md R23). -/
  hdrCnt : BitVec 3
  /-- `pay[0..65535]` (10_state.md R24). -/
  pay : Mem
  /-- `pay_cnt` (10_state.md R25). -/
  payCnt : BitVec 16
  /-- The model's own: which free contents the unwritten cells of `pay` hold (log 8). -/
  seed : Nat
deriving DecidableEq, Repr

/-- The wire encoder with its tables (the WE rows of 10_state.md R20). -/
structure WE where
  /-- `lut[c][v]` at address `c * 256 + v` (10_state.md R30, 20_memory.md R68). -/
  lut : Mem
  /-- `out[0..87383]` (10_state.md R31, 20_memory.md R69). -/
  out : Mem
  /-- `out_len` (10_state.md R31). -/
  outLen : BitVec 17
  /-- The model's own: which free contents the unwritten cells of `lut` give (log 8). -/
  seed : Nat
deriving DecidableEq, Repr

/-- The state of the block, its configuration, its traces and what the outside still presents. -/
structure State where
  /-- The configuration (10_state.md R29, R37); no operation changes it (log 1). -/
  cfg : Config
  /-- The frame decoders, one per source; their number is `N_SOURCES` (10_state.md R36). -/
  fds : List FD
  /-- The wire encoder (10_state.md R36). -/
  we : WE
  /-- The output trace so far, oldest event first (00_scope.md R8, R10). -/
  trace : List Event
  /-- The values `ok` returned to callers of WE_ENCODE so far, oldest first (43_wire_encoder.md R219; log 9). -/
  returns : List Bool
  /-- The recorded faults, oldest first, never cleared (93_implementation_defined.md part 1; log 5). -/
  faults : List Fault
  /-- The model's own: how many draws have been made (log 8, 9). -/
  draws : Nat
  /-- The model's own: what the serial writer outside will do (log 16). -/
  writer : SerialWriter
  /-- The operations the outside presents next, first one next (10_state.md R37; log 11). -/
  input : List OpWord
deriving DecidableEq, Repr

/-- A decoder as it is created (10_state.md R35), with the log's value 0 for `hdr` (log 3). -/
def FD.initial (seed : Nat) : FD where
  conn := false
  hdrAddr := 0
  hdrCmd := 0
  hdrLenHi := 0
  hdrLenLo := 0
  hdrCnt := 0
  pay := []
  payCnt := 0
  seed := seed

/-- The wire encoder as it is created (10_state.md R35). -/
def WE.initial (seed : Nat) : WE where
  lut := []
  out := []
  outLen := 0
  seed := seed

/-- The block of `n` sources with configuration `cfg`, right after reset (10_state.md R35, R36). -/
def State.initial (cfg : Config) (n : Nat) : State where
  cfg := cfg
  fds := (List.range n).map FD.initial
  we := WE.initial n
  trace := []
  returns := []
  faults := []
  draws := n + 1
  writer := .dutiful
  input := []

/-- The machine right after reset (10_state.md R35), with the default configuration (log 1, 18) and one source (log 2). -/
def State.reset : State :=
  State.initial ⟨.rgb, BitVec.allOnes 256, 255⟩ 1

end Sys2Proof.Machine
end

