-- ==== Sys2Proof/Machine/Ops.lean ====
section
/-!
DEFINITION. The named operations over memory spaces, decoders, traces and draws. The block has no exception to take
(60_exceptions.md R250); what stands in its place, the dispatch of a completed frame (R259) and closure entry (R260), is
`completeFrame` in Machine/FrameDecoder.lean and `closeFd` here.
-/

namespace Sys2Proof.Machine

/-- The outcome of a step of this machine. -/
abbrev Result := Host.Outcome State Fault Refusal

/-- Go on from the next state, if there is one. -/
def Result.andThen (r : Result) (f : State → Result) : Result :=
  match r with
  | .next s => f s
  | .fault e => .fault e
  | .refused e => .refused e

/-! Memory spaces (20_memory.md R60, R66): every access is one byte. -/

/-- `MemRead(S:a, 1)`, or `none` where nothing has been written since the last reset. -/
def Mem.read : Mem → Nat → Option Byte
  | [], _ => none
  | (k, x) :: rest, a => if a = k then some x else Mem.read rest a

/-- `MemWrite(S:a, 1, x)`, keeping the addresses strictly rising. -/
def Mem.write : Mem → Nat → Byte → Mem
  | [], a, x => [(a, x)]
  | (k, y) :: rest, a, x =>
    if a < k then (a, x) :: (k, y) :: rest
    else if a = k then (k, x) :: rest
    else (k, y) :: Mem.write rest a x

/-- Write bytes to successive addresses from `a`, in ascending order (20_memory.md R63). -/
def Mem.writeSeq : Mem → Nat → List Byte → Mem
  | m, _, [] => m
  | m, a, x :: xs => Mem.writeSeq (Mem.write m a x) (a + 1) xs

/-- Every address is at least `lo` and below `size`, and they rise strictly. -/
def Mem.wfFrom (lo size : Nat) : Mem → Bool
  | [] => true
  | (k, _) :: rest => decide (lo ≤ k) && decide (k < size) && Mem.wfFrom (k + 1) size rest

/-- The canonical form of a memory of `size` cells: strictly rising addresses inside the space. An unlisted address
holds no byte, so no entry can equal what an unlisted address reads as. -/
def Mem.wf (size : Nat) (m : Mem) : Bool :=
  Mem.wfFrom 0 size m

/-! Header registers (10_state.md R22). -/

/-- `hdr[i] <- b` for `i` in 0..3 (40_frame_decoder.md R131). -/
def FD.setHdr (fd : FD) (i : Nat) (b : Byte) : FD :=
  match i with
  | 0 => { fd with hdrAddr := b }
  | 1 => { fd with hdrCmd := b }
  | 2 => { fd with hdrLenHi := b }
  | _ => { fd with hdrLenLo := b }

/-- `hdr_cnt <- 0; pay_cnt <- 0`, the clearing of a decoder (10_state.md R34). -/
def FD.clearCounters (fd : FD) : FD :=
  { fd with hdrCnt := 0, payCnt := 0 }

/-- A decoder after RESET (70_reset_and_hazards.md R280, R281): counters and `conn` zero, buffers unspecified. -/
def FD.afterReset (seed : Nat) : FD where
  conn := false
  hdrAddr := Config.unspecHdr seed 0
  hdrCmd := Config.unspecHdr seed 1
  hdrLenHi := Config.unspecHdr seed 2
  hdrLenLo := Config.unspecHdr seed 3
  hdrCnt := 0
  pay := []
  payCnt := 0
  seed := seed

/-- The wire encoder after a RESET of the whole block (70_reset_and_hazards.md R280, R281). -/
def WE.afterReset (seed : Nat) : WE where
  lut := []
  out := []
  outLen := 0
  seed := seed

/-! The state. -/

/-- `N_SOURCES` (10_state.md R36). -/
def State.nSources (s : State) : Nat :=
  s.fds.length

/-- The decoder of source `src`, if there is one. -/
def State.fdAt (s : State) (src : Nat) : Option FD :=
  s.fds[src]?

/-- Replace the decoder of source `src`; every other one stays as it is (10_state.md R36). -/
def State.setFd (s : State) (src : Nat) (fd : FD) : State :=
  { s with fds := s.fds.set src fd }

/-- Apply an operation of a decoder to source `src`; a number outside `0 .. N_SOURCES-1` selects nothing and the
operation is refused (60_exceptions.md R251 E5). -/
def State.onFd (s : State) (src : Nat) (f : FD → Result) : Result :=
  match s.fdAt src with
  | some fd => f fd
  | none => .refused .noSuchSource

/-- `emit e` (00_scope.md R10). -/
def State.emit (s : State) (e : Event) : State :=
  { s with trace := s.trace ++ [e] }

/-- Does the writer's next write return (70_reset_and_hazards.md R290)? -/
def SerialWriter.returns : SerialWriter → Bool
  | .dutiful => true
  | .blocksAfter n => n != 0

/-- The writer after a write that returned. -/
def SerialWriter.afterWrite : SerialWriter → SerialWriter
  | .dutiful => .dutiful
  | .blocksAfter n => .blocksAfter (n - 1)

/-- `draw ok in {true, false}; return ok` of a write that returns (43_wire_encoder.md R219): a fresh free value, returned
and stored in no register. -/
def State.returnOk (s : State) : State :=
  { s with
    returns := s.returns ++ [Config.serialOk s.draws]
    draws := s.draws + 1
    writer := s.writer.afterWrite }

/-- Record faults; they are never cleared (93_implementation_defined.md part 1). -/
def State.record (s : State) (fs : List Fault) : State :=
  { s with faults := s.faults ++ fs }

/-- Closure entry (60_exceptions.md R260): the partial frame is discarded and `Closed()` emitted; nothing is saved. -/
def State.closeFd (s : State) (src : Nat) (fd : FD) : State :=
  (s.setFd src { fd.clearCounters with conn := false }).emit .closed

/-- The decoders after a RESET of all of them, each with free contents of its own. -/
def resetAllFds : List FD → Nat → List FD
  | [], _ => []
  | _ :: rest, seed => FD.afterReset seed :: resetAllFds rest (seed + 1)

end Sys2Proof.Machine
end

