-- ==== Sys2Proof/Machine/Operands.lean ====
section
/-!
DEFINITION. Operand forms: the table address, the length and the header word of a frame, and the pixels of a payload.
-/

namespace Sys2Proof.Machine

/-- The `LUT` address `{c, v}` (20_memory.md R68). -/
def lutAddr (c : BitVec 2) (v : Byte) : Nat :=
  (c ++ v).toNat

/-- The channel numbers 0 = red, 1 = green, 2 = blue (10_state.md R30). -/
def chanR : BitVec 2 := 0#2

/-- Channel number of green (10_state.md R30). -/
def chanG : BitVec 2 := 1#2

/-- Channel number of blue (10_state.md R30). -/
def chanB : BitVec 2 := 2#2

/-- `pay_len = {hdr[2], hdr[3]}` (30_encoding.md R94, 20_memory.md R62). The spec defines it only while `hdr_cnt = 4`
(10_state.md R26); below that it is the model's choice, a function of stale bytes, and means nothing (log 26). -/
def FD.payLen (fd : FD) : BitVec 16 :=
  fd.hdrLenHi ++ fd.hdrLenLo

/-- The header word `H = {hdr[0], hdr[1], hdr[2], hdr[3]}` (30_encoding.md R91). -/
def FD.headerWord (fd : FD) : BitVec 32 :=
  fd.hdrAddr ++ fd.hdrCmd ++ (fd.hdrLenHi ++ fd.hdrLenLo)

/-- `pay[a]`: the byte written there, or the free value of a stale cell (10_state.md R34; log 4). -/
def FD.payByte (fd : FD) (a : Nat) : Byte :=
  (fd.pay.read a).getD (Config.unspecPay fd.seed a)

/-- Pixel `i` of the payload: `(pay[3*i], pay[3*i+1], pay[3*i+2])` (30_encoding.md R95). -/
def FD.pixelAt (fd : FD) (i : Nat) : Pixel where
  r := fd.payByte (3 * i)
  g := fd.payByte (3 * i + 1)
  b := fd.payByte (3 * i + 2)

/-- `n = len div 3` (30_encoding.md R95). -/
def pixelCount (len : BitVec 16) : Nat :=
  len.toNat / 3

/-- `px[0 .. n-1]` of the payload (30_encoding.md R95). -/
def FD.pixels (fd : FD) (n : Nat) : List Pixel :=
  (List.range n).map fd.pixelAt

end Sys2Proof.Machine
end

