-- ==== Sys2Proof/Machine/GammaLut.lean ====
section
/-!
DEFINITION. The gamma tables as storage: LUT_WRITE and the lookup (42_gamma_lut.md R190 to R192, R198).
-/

namespace Sys2Proof.Machine

/-- `LUT_WRITE(c, v, val)` (42_gamma_lut.md R190); `c = 3` selects no table and is refused (R191). -/
def execLutWrite (c : BitVec 2) (v val : Byte) (s : State) : Result :=
  if c = 3#2 then .refused .noSuchTable
  else .next { s with we := { s.we with lut := s.we.lut.write (lutAddr c v) val } }

/-- `gamma_apply(c, x) = lut[c][x]` (42_gamma_lut.md R192). An entry never written since reset has no defined value:
the byte is free (93_implementation_defined.md U3). -/
def WE.gammaApply (we : WE) (c : BitVec 2) (x : Byte) : Byte :=
  (we.lut.read (lutAddr c x)).getD (Config.unspecLut we.seed (lutAddr c x))

/-- The fault of one lookup, if the entry was never written since reset (42_gamma_lut.md R198). -/
def WE.lookupFault (we : WE) (c : BitVec 2) (x : Byte) : List Fault :=
  match we.lut.read (lutAddr c x) with
  | some _ => []
  | none => [.unwrittenLutEntry c x]

end Sys2Proof.Machine
end

