-- ==== Sys2Proof/Machine/WireEncoder.lean ====
section
/-!
DEFINITION. The wire encoder: the steps of WE_ENCODE and the hand-off to the serial writer (43_wire_encoder.md R210 to R219).
-/

namespace Sys2Proof.Machine

/-- The gamma step: each channel through its own table (43_wire_encoder.md R212). -/
def WE.correct (we : WE) (p : Pixel) : Pixel where
  r := we.gammaApply chanR p.r
  g := we.gammaApply chanG p.g
  b := we.gammaApply chanB p.b

/-- `packed = {r'[7:6], g'[7:6], b'[7:6]}` of a corrected pixel (43_wire_encoder.md R213). -/
def packedTop (q : Pixel) : BitVec 6 :=
  q.r.extractLsb' 6 2 ++ q.g.extractLsb' 6 2 ++ q.b.extractLsb' 6 2

/-- `ctrl = {CTRL_TOP, ~packed}` of a corrected pixel (30_encoding.md R97). -/
def controlByte (q : Pixel) : Byte :=
  Config.ctrlTop ++ ~~~ packedTop q

/-- The three colour bytes of a corrected pixel, in `COLOR_ORDER` (43_wire_encoder.md R215). -/
def colourBytes (order : ColorOrder) (q : Pixel) : List Byte :=
  match order with
  | .rgb => [q.r, q.g, q.b]
  | .bgr => [q.b, q.g, q.r]

/-- The record of a corrected pixel: control byte, then colour bytes (30_encoding.md R96). -/
def record (order : ColorOrder) (q : Pixel) : List Byte :=
  controlByte q :: colourBytes order q

/-- The fixed preamble (43_wire_encoder.md R214). -/
def preamble : List Byte :=
  List.replicate Config.preLen 0

/-- The whole buffer for a pixel sequence (30_encoding.md R96, 20_memory.md R69). -/
def wireBuffer (order : ColorOrder) (we : WE) (px : List Pixel) : List Byte :=
  preamble ++ px.flatMap (fun p => record order (we.correct p))

/-- The faults of the lookups of one pixel, red, green, blue (42_gamma_lut.md R198). -/
def WE.pixelFaults (we : WE) (p : Pixel) : List Fault :=
  we.lookupFault chanR p.r ++ we.lookupFault chanG p.g ++ we.lookupFault chanB p.b

/-- `out_len = 4 + 4*n` (43_wire_encoder.md R210). -/
def bufferLen (n : Nat) : Nat :=
  Config.preLen + Config.recLen * n

/-- The body of WE_ENCODE for an admitted count and a writer that returns: the buffer is written from address 0, `SerialWrite` is emitted with
the bytes just written and their number, and `ok` is drawn and returned (43_wire_encoder.md R210, R218, R219). -/
def wireEncode (px : List Pixel) (s : State) : State :=
  let buf := wireBuffer s.cfg.colorOrder s.we px
  let len := bufferLen px.length
  let we' := { s.we with out := s.we.out.writeSeq 0 buf, outLen := BitVec.ofNat 17 len }
  ((({ s with we := we' }).record (px.flatMap s.we.pixelFaults)).emit (.serialWrite buf len)).returnOk

/-- `WE_ENCODE(n, px)` (43_wire_encoder.md R210), refused for `n > 21845` (R211). It does not end before the serial writer
returns; with one that never does the block is stuck (70_reset_and_hazards.md R290, 93_implementation_defined.md U17). -/
def execWeEncode (px : List Pixel) (s : State) : Result :=
  if Config.pixMax < px.length then .refused .tooManyPixels
  else if s.writer.returns then .next (wireEncode px s)
  else .fault .serialWriterBlocked

end Sys2Proof.Machine
end

