-- ==== Sys2Proof/Machine/Handler.lean ====
section
/-!
DEFINITION. The handler that consumes `Pixels` (44_dataflow.md R240 to R243): a function from the event's fields and the
wire encoder's state to wire encoder operations, with no access to a decoder.
-/

namespace Sys2Proof.Machine

/-- What a handler may do: invoke an operation (44_dataflow.md R243), or, against its duty (60_exceptions.md R270), never
return (R261). -/
inductive WeOp where
  | encode (px : List Pixel)
  | lutWrite (c : BitVec 2) (v val : Byte)
  | hang
deriving DecidableEq, Repr

/-- A handler: called with `(address, pixelCount, pixels)` (44_dataflow.md R243). -/
abbrev Handler := Byte → Nat → List Pixel → WE → List WeOp

/-- The reference composition: encode every frame whose address is accepted (44_dataflow.md R240, R242). -/
def referenceHandler (cfg : Config) : Handler :=
  fun addr _ px _ => if cfg.accepts addr then [.encode px] else []

/-- Apply one operation a handler invokes; a handler that never returns leaves the block stuck (U17). What a refused
operation of a handler does to the dispatching FD_BYTE the spec does not say; that it refuses the whole of it is the model's
choice (log 15). -/
def runWeOp (op : WeOp) (s : State) : Result :=
  match op with
  | .encode px => execWeEncode px s
  | .lutWrite c v val => execLutWrite c v val s
  | .hang => .fault .handlerBlocked

/-- Apply the operations a handler invokes, in order. -/
def runWeOps : List WeOp → State → Result
  | [], s => .next s
  | op :: rest, s => (runWeOp op s).andThen (runWeOps rest)

/-- Invoke a handler with the fields of a `Pixels` event, inside the step that emitted it (44_dataflow.md R241). -/
def runHandler (h : Handler) (addr : Byte) (n : Nat) (px : List Pixel) (s : State) : Result :=
  runWeOps (h addr n px s.we) s

end Sys2Proof.Machine
end

