-- ==== Sys2Proof/Machine/FrameCommands.lean ====
section
/-!
DEFINITION. The two frame commands, run inside the FD_BYTE that completes a frame (40_frame_decoder.md R135, R136).
-/

namespace Sys2Proof.Machine

/-- `SET_PIXELS(addr, len)` with any handler: assemble the pixels, emit `Pixels`, invoke the handler at once
(40_frame_decoder.md R135, 44_dataflow.md R240, R243). -/
def setPixelsWith (h : Handler) (src : Nat) (addr : Byte) (len : BitVec 16) (s : State) : Result :=
  s.onFd src fun fd =>
    let n := pixelCount len
    let px := fd.pixels n
    runHandler h addr n px (s.emit (.pixels addr n px))

/-- `SET_PIXELS` in the reference composition (44_dataflow.md R240). -/
def execSetPixels (src : Nat) (addr : Byte) (len : BitVec 16) (s : State) : Result :=
  setPixelsWith (referenceHandler s.cfg) src addr len s

/-- `CMD_OTHER(addr, cmd, len)`: nothing (40_frame_decoder.md R136). -/
def execCmdOther (src : Nat) (_addr _cmd : Byte) (_len : BitVec 16) (s : State) : Result :=
  s.onFd src fun _ => .next s

end Sys2Proof.Machine
end

