-- ==== Sys2Proof/Machine/FrameDecoder.lean ====
section
/-!
DEFINITION. The frame decoder: FD_BYTE and frame completion (40_frame_decoder.md R130 to R134), the block's analogue of
taking an exception and returning from it (60_exceptions.md R259, R261). The handler is a parameter (44_dataflow.md R243);
the block's own FD_BYTE has the reference handler (R240).
-/

namespace Sys2Proof.Machine

/-- `hdr_cnt <- 0; pay_cnt <- 0` for source `src`, the last two assignments of a completion (40_frame_decoder.md R134). -/
def State.clearFd (s : State) (src : Nat) : Result :=
  s.onFd src fun fd => .next (s.setFd src fd.clearCounters)

/-- The command of a completed frame: `if cmd = 1` then SET_PIXELS, else CMD_OTHER (40_frame_decoder.md R134). -/
def runCommand (h : Handler) (src : Nat) (fd : FD) (s : State) : Result :=
  if fd.hdrCmd = Config.cmdSetPixels then setPixelsWith h src fd.hdrAddr fd.payLen s
  else execCmdOther src fd.hdrAddr fd.hdrCmd fd.payLen s

/-- Frame completion (40_frame_decoder.md R134, 60_exceptions.md R259): `FrameDone`, the command with its handler, then
the counters. -/
def completeFrame (h : Handler) (src : Nat) (s : State) : Result :=
  s.onFd src fun fd =>
    (runCommand h src fd (s.emit (.frameDone fd.hdrAddr fd.hdrCmd fd.payLen))).andThen
      fun s2 => s2.clearFd src

/-- The decoder after the header path's store and increment (40_frame_decoder.md R131). -/
def FD.storeHeader (fd : FD) (b : Byte) : FD :=
  { fd.setHdr fd.hdrCnt.toNat b with hdrCnt := fd.hdrCnt + 1 }

/-- The decoder after the payload path's store and increment (40_frame_decoder.md R132). -/
def FD.storePayload (fd : FD) (b : Byte) : FD :=
  { fd with pay := fd.pay.write fd.payCnt.toNat b, payCnt := fd.payCnt + 1 }

/-- The header path (40_frame_decoder.md R131); a length of 0 completes the frame at once (R133). -/
def headerByte (h : Handler) (src : Nat) (b : Byte) (fd : FD) (s : State) : Result :=
  let fd' := fd.storeHeader b
  let s' := s.setFd src fd'
  if fd'.hdrCnt = 4 ∧ fd'.payLen = 0 then completeFrame h src s' else .next s'

/-- The payload path (40_frame_decoder.md R132); the count compared is the unbounded sum (00_scope.md R9). -/
def payloadByte (h : Handler) (src : Nat) (b : Byte) (fd : FD) (s : State) : Result :=
  let s' := s.setFd src (fd.storePayload b)
  if fd.payCnt.toNat + 1 = fd.payLen.toNat then completeFrame h src s' else .next s'

/-- `FD_BYTE(b)` with any handler (40_frame_decoder.md R130, 44_dataflow.md R243). -/
def fdByteWith (h : Handler) (src : Nat) (b : Byte) (s : State) : Result :=
  s.onFd src fun fd =>
    if fd.conn = false then .refused .notConnected
    else if fd.hdrCnt.toNat < 4 then headerByte h src b fd s
    else payloadByte h src b fd s

/-- `FD_BYTE(b)` in the reference composition (40_frame_decoder.md R130, 44_dataflow.md R240). -/
def execFdByte (src : Nat) (b : Byte) (s : State) : Result :=
  fdByteWith (referenceHandler s.cfg) src b s

end Sys2Proof.Machine
end

