-- ==== Sys2Proof/Machine/LinkEvents.lean ====
section
/-!
DEFINITION. The link operations FD_OPEN, FD_CLOSE and FD_TIMEOUT (41_link_events.md R170, R171, R173).
-/

namespace Sys2Proof.Machine

/-- `FD_OPEN` (41_link_events.md R170). -/
def execFdOpen (src : Nat) (s : State) : Result :=
  s.onFd src fun fd =>
    if fd.conn = true then .refused .alreadyConnected
    else .next (s.setFd src { fd.clearCounters with conn := true })

/-- `FD_CLOSE` (41_link_events.md R171), `Closed()` also while not connected (92_eei_decisions.md D29). -/
def execFdClose (src : Nat) (s : State) : Result :=
  s.onFd src fun fd => .next (s.closeFd src fd)

/-- `FD_TIMEOUT`: no state change, no event (41_link_events.md R173). -/
def execFdTimeout (src : Nat) (s : State) : Result :=
  s.onFd src fun _ => .next s

end Sys2Proof.Machine
end

