-- ==== Sys2Proof/Machine/ResetOp.lean ====
section
/-!
DEFINITION. The operation RESET (70_reset_and_hazards.md R280, R281).
-/

namespace Sys2Proof.Machine

/-- RESET of one decoder: its FD half only. -/
def resetFd (src : Nat) (s : State) : Result :=
  s.onFd src fun _ => .next { s.setFd src (FD.afterReset s.draws) with draws := s.draws + 1 }

/-- RESET of the whole block: every decoder and the wire encoder. -/
def resetBlock (s : State) : State :=
  { s with
    fds := resetAllFds s.fds s.draws
    we := WE.afterReset (s.draws + s.nSources)
    draws := s.draws + s.nSources + 1 }

/-- `RESET` of one decoder (`some`) or of all (`none`) (70_reset_and_hazards.md R280; log 7). No event; what the spec
leaves unspecified afterwards is a free value. -/
def execReset (src : Option Nat) (s : State) : Result :=
  match src with
  | some k => resetFd k s
  | none => .next (resetBlock s)

end Sys2Proof.Machine
end

