-- ==== Sys2Proof/Machine/Dispatch.lean ====
section
/-!
DEFINITION. One arm per row of opcode_table.json, each one call of its meaning.
-/

namespace Sys2Proof.Machine

def exec (i : Instr) (s : State) : Host.Outcome State Fault Refusal :=
  match i with
  | .fdTimeout src => Sys2Proof.Machine.execFdTimeout src s
  | .fdOpen src => Sys2Proof.Machine.execFdOpen src s
  | .fdByte src b => Sys2Proof.Machine.execFdByte src b s
  | .fdClose src => Sys2Proof.Machine.execFdClose src s
  | .lutWrite c v val => Sys2Proof.Machine.execLutWrite c v val s
  | .weEncode px => Sys2Proof.Machine.execWeEncode px s
  | .reset src => Sys2Proof.Machine.execReset src s
  | .setPixels src addr len => Sys2Proof.Machine.execSetPixels src addr len s
  | .cmdOther src addr cmd len => Sys2Proof.Machine.execCmdOther src addr cmd len s

end Sys2Proof.Machine
end

