-- ==== Sys2Proof/WellFormed.lean ====
section
/-!
DEFINITION. The operand conditions the spec puts on an operation, apart from the state it is applied in.
-/

namespace Sys2Proof

/-- An operation or command whose operands the spec admits: a table channel 0 to 2 (42_gamma_lut.md R191), at most
`PIX_MAX` pixels (43_wire_encoder.md R211), and a `CMD_OTHER` whose command code is not 1 (30_encoding.md R102). -/
def Instr.wf : Instr → Bool
  | .fdTimeout _ => true
  | .fdOpen _ => true
  | .fdByte _ _ => true
  | .fdClose _ => true
  | .lutWrite c _ _ => c != 3#2
  | .weEncode px => decide (px.length ≤ Config.pixMax)
  | .reset _ => true
  | .setPixels _ _ _ => true
  | .cmdOther _ _ cmd _ => cmd != Config.cmdSetPixels

end Sys2Proof
end

