-- ==== Sys2Proof/Decode.lean ====
section
/-!
DEFINITION. Decoding of operation words (30_encoding.md R101) and of header words (R91, R102), and the encoder written
from the same tables.
-/

namespace Sys2Proof

/-- Why the bits of an operation word are no operation. -/
inductive DecodeError where
  /-- A tag 0x6 to 0xE (30_encoding.md R101, R104). -/
  | reservedTag (tag : BitVec 4)
  /-- Fewer bits than the tag's format has. -/
  | truncated
  /-- More bits than the tag's format has. -/
  | trailing
deriving DecidableEq, Repr

/-- The `w` low bits of `x`, most significant first. -/
def toBits : Nat → Nat → List Bool
  | 0, _ => []
  | w + 1, x => x.testBit w :: toBits w x

/-- The number a bit string denotes, its first bit the most significant. -/
def ofBits (bs : List Bool) : Nat :=
  bs.foldl (fun acc b => 2 * acc + b.toNat) 0

/-- A field of `w` bits off the front of a word, and what follows it. -/
def takeField (w : Nat) (bs : List Bool) : Except DecodeError (BitVec w × List Bool) :=
  if bs.length < w then .error .truncated
  else .ok (BitVec.ofNat w (ofBits (bs.take w)), bs.drop w)

/-- The word ends here. -/
def wordEnd {α : Type} (a : α) (bs : List Bool) : Except DecodeError α :=
  match bs with
  | [] => .ok a
  | _ :: _ => .error .trailing

/-- `n` pixels of 24 bits, each `r[23:16] g[15:8] b[7:0]` (30_encoding.md R101). -/
def takePixels : Nat → List Bool → Except DecodeError (List Pixel × List Bool)
  | 0, bs => .ok ([], bs)
  | n + 1, bs =>
    match takeField 24 bs with
    | .error e => .error e
    | .ok (x, rest) =>
      match takePixels n rest with
      | .error e => .error e
      | .ok (px, rest') => .ok (⟨x.extractLsb' 16 8, x.extractLsb' 8 8, x.extractLsb' 0 8⟩ :: px, rest')

/-- `FD_BYTE`: `b[7:0]` after the tag (30_encoding.md R101). -/
def decodeByteOp (src : Nat) (bs : List Bool) : Except DecodeError Instr :=
  match takeField 8 bs with
  | .error e => .error e
  | .ok (b, rest) => wordEnd (.fdByte src b) rest

/-- `LUT_WRITE`: `c[1:0]`, `v[7:0]`, `val[7:0]` after the tag (30_encoding.md R101). -/
def decodeLutOp (bs : List Bool) : Except DecodeError Instr :=
  match takeField 18 bs with
  | .error e => .error e
  | .ok (x, rest) => wordEnd (.lutWrite (x.extractLsb' 16 2) (x.extractLsb' 8 8) (x.extractLsb' 0 8)) rest

/-- `WE_ENCODE`: `n[14:0]`, then `n` pixels, after the tag (30_encoding.md R101). -/
def decodeEncodeOp (bs : List Bool) : Except DecodeError Instr :=
  match takeField 15 bs with
  | .error e => .error e
  | .ok (n, rest) =>
    match takePixels n.toNat rest with
    | .error e => .error e
    | .ok (px, rest') => wordEnd (.weEncode px) rest'

/-- The operation a word stands for (30_encoding.md R101): the four tag bits select the format of the rest. The decoder
number is the one presented beside the word; absent, it is 0 (R105), and for RESET the whole block (log 7, 12). -/
def decode (w : OpWord) : Except DecodeError Instr :=
  let src := w.src.getD 0
  match takeField 4 w.bits with
  | .error e => .error e
  | .ok (tag, rest) =>
    if tag = 0x0#4 then wordEnd (.fdTimeout src) rest
    else if tag = 0x1#4 then wordEnd (.fdOpen src) rest
    else if tag = 0x2#4 then decodeByteOp src rest
    else if tag = 0x3#4 then wordEnd (.fdClose src) rest
    else if tag = 0x4#4 then decodeLutOp rest
    else if tag = 0x5#4 then decodeEncodeOp rest
    else if tag = 0xF#4 then wordEnd (.reset w.src) rest
    else .error (.reservedTag tag)

/-- The frame command of a completed header `H` (30_encoding.md R91), matched in the order of R102: `SET_PIXELS` on
`H & 0x00FF0000 = 0x00010000`, then `CMD_OTHER`, which takes every other header. -/
def decodeHeader (src : Nat) (H : BitVec 32) : Instr :=
  if H &&& 0x00FF0000#32 = 0x00010000#32 then .setPixels src (H.extractLsb' 24 8) (H.extractLsb' 0 16)
  else .cmdOther src (H.extractLsb' 24 8) (H.extractLsb' 16 8) (H.extractLsb' 0 16)

/-- What stands for a row of opcode_table.json: an operation word, or a header word of a frame (30_encoding.md R107). -/
inductive Encoded where
  | op (w : OpWord)
  | header (src : Nat) (H : BitVec 32)
deriving DecidableEq, Repr

/-- The instruction an encoded row stands for. -/
def decodeRow : Encoded → Except DecodeError Instr
  | .op w => decode w
  | .header src H => .ok (decodeHeader src H)

/-- The 24 bits of a pixel in a WE_ENCODE word (30_encoding.md R101). -/
def pixelBits (p : Pixel) : List Bool :=
  toBits 8 p.r.toNat ++ toBits 8 p.g.toNat ++ toBits 8 p.b.toNat

/-- The word of an operation (30_encoding.md R101) or the header word of a frame command (R91). -/
def encode : Instr → Encoded
  | .fdTimeout src => .op ⟨some src, toBits 4 0x0⟩
  | .fdOpen src => .op ⟨some src, toBits 4 0x1⟩
  | .fdByte src b => .op ⟨some src, toBits 4 0x2 ++ toBits 8 b.toNat⟩
  | .fdClose src => .op ⟨some src, toBits 4 0x3⟩
  | .lutWrite c v val => .op ⟨none, toBits 4 0x4 ++ toBits 2 c.toNat ++ toBits 8 v.toNat ++ toBits 8 val.toNat⟩
  | .weEncode px => .op ⟨none, toBits 4 0x5 ++ toBits 15 px.length ++ px.flatMap pixelBits⟩
  | .reset src => .op ⟨src, toBits 4 0xF⟩
  | .setPixels src addr len => .header src (addr ++ (0x01#8) ++ len)
  | .cmdOther src addr cmd len => .header src (addr ++ cmd ++ len)

/-- The encoded row that a table word `w` of `nbits` bits lays out, with no decoder number (log 13): padding bits above
an operation word are zero, and pixels beyond the table's bits are zeros. A word that is no row's keeps all its bits. -/
def layTableWord (nbits w : Nat) : Encoded :=
  if 24 < nbits then .header 0 (BitVec.ofNat 32 w)
  else if nbits ≤ 8 then
    .op ⟨none, toBits (if w < 2 ^ 4 then 4 else 8) w⟩
  else if nbits ≤ 16 then
    .op ⟨none, toBits (if w < 2 ^ 12 then 12 else 16) w⟩
  else if w / 2 ^ 18 = 0x4 then .op ⟨none, toBits 22 w⟩
  else if w / 2 ^ 15 = 0x5 then
    .op ⟨none, toBits 19 w ++ List.replicate (24 * (w % 2 ^ 15)) false⟩
  else if w / 2 ^ 16 = 0x01 then .header 0 (BitVec.ofNat 32 w)
  else .op ⟨none, toBits 24 w⟩

/-- The instruction the decoder reads from a word numbered as opcode_table.json numbers it. -/
def decodeTableWord (nbits w : Nat) : Option Instr :=
  match decodeRow (layTableWord nbits w) with
  | .ok i => some i
  | .error _ => none

end Sys2Proof
end

