-- ==== Sys2Proof/Machine/Fetch.lean ====
section
/-!
DEFINITION. Taking the next operation the outside presents, and presenting a row of opcode_table.json as the next one.
The block fetches no program (10_state.md R27); its input is the operation sequence (00_scope.md R8, 10_state.md R37).
-/

namespace Sys2Proof.Machine

/-- The name under which an undecodable operation word is refused (30_encoding.md R101, R104). -/
def refusalOf : DecodeError → Refusal
  | .reservedTag tag => .reservedTag tag
  | .truncated => .malformedWord
  | .trailing => .malformedWord

/-- The next operation word presented, and the state that has taken it. -/
def State.takeInput (s : State) : Option (OpWord × State) :=
  match s.input with
  | [] => none
  | w :: rest => some (w, { s with input := rest })

/-- Present an operation word as the next one. -/
def State.present (s : State) (w : OpWord) : State :=
  { s with input := w :: s.input }

/-- A decoder that has received all of a frame with header `H` but its last byte, the payload bytes zeros (log 13). -/
def FD.oneByteShort (fd : FD) (H : BitVec 32) : FD :=
  let len := (H.extractLsb' 0 16).toNat
  { fd with
    conn := true
    hdrAddr := H.extractLsb' 24 8
    hdrCmd := H.extractLsb' 16 8
    hdrLenHi := H.extractLsb' 8 8
    hdrLenLo := if len = 0 then fd.hdrLenLo else H.extractLsb' 0 8
    hdrCnt := if len = 0 then 3 else 4
    pay := if len = 0 then fd.pay else (List.range (len - 1)).map (fun a => (a, 0#8))
    payCnt := BitVec.ofNat 16 (len - 1) }

/-- A decoder the transport can present a byte to: bytes are offered only while `conn = 1` (41_link_events.md R174). -/
def FD.connected (fd : FD) : FD :=
  { fd with conn := true }

/-- Present a row: an operation word as the next input, for an FD_BYTE with the connection its byte comes from open; a
header word as a frame of source `src` that the next input, its last byte (a zero), completes (log 13). -/
def State.placeRow (s : State) : Encoded → State
  | .op w =>
    match decode w with
    | .ok (.fdByte src _) => ({ s with fds := s.fds.modify src FD.connected }).present w
    | _ => s.present w
  | .header src H =>
    ({ s with fds := s.fds.modify src (fun fd => fd.oneByteShort H) }).present
      ⟨some src, toBits 4 0x2 ++ toBits 8 0⟩

end Sys2Proof.Machine
end

