-- ==== Sys2Proof/Machine/Step.lean ====
section
/-!
DEFINITION. One step: the next operation presented is decoded and executed, atomically (00_scope.md R7).
-/

namespace Sys2Proof.Machine

/-- One step of the block. With no operation presented its state is unchanged (60_exceptions.md R267,
70_reset_and_hazards.md R299; log 11). -/
def step (s : State) : Host.Outcome State Fault Refusal :=
  match s.takeInput with
  | none => .next s
  | some (w, s') =>
    match decode w with
    | .ok i => exec i s'
    | .error e => .refused (refusalOf e)

/-- The state in which the next step runs the row that the table word `w` of `nbits` bits lays out. -/
def State.withFetchWord (s : State) (nbits w : Nat) : State :=
  s.placeRow (layTableWord nbits w)

end Sys2Proof.Machine
end

