-- ==== Sys2Proof/Machine/Flags.lean ====
section
/-!
DEFINITION. The block stores no flag (10_state.md R28). The status a consumer can read is derived (R26): the state of the
connection, the bytes still wanted and the pixel count.
-/

namespace Sys2Proof.Machine

/-- The states of a decoder (10_state.md R26, 40_frame_decoder.md R137). -/
inductive Phase where
  | disconnected
  | awaitHeader
  | awaitPayload
deriving DecidableEq, Repr

/-- `state` (10_state.md R26). -/
def FD.phase (fd : FD) : Phase :=
  if fd.conn = false then .disconnected
  else if fd.hdrCnt.toNat < 4 then .awaitHeader
  else .awaitPayload

/-- `pix_cnt = pay_len div 3` (10_state.md R26), defined by the spec only while `hdr_cnt = 4`; its value below that is
the model's choice and means nothing (log 26). -/
def FD.pixCnt (fd : FD) : Nat :=
  pixelCount fd.payLen

/-- `want`: the bytes still missing from the open buffer (10_state.md R26). -/
def FD.want (fd : FD) : Nat :=
  if fd.conn = false then 0
  else if fd.hdrCnt.toNat < 4 then 4 - fd.hdrCnt.toNat
  else fd.payLen.toNat - fd.payCnt.toNat

end Sys2Proof.Machine
end

