-- ==== Sys2Proof/Machine/GammaContents.lean ====
section
/-!
DEFINITION. The reference contents of the gamma tables (42_gamma_lut.md R193 to R197): which byte `gamma_fn(g, v)` may
be, as a relation over the reals, and the fully determined table for 2.2 (95_test_vectors.md T31). The block itself
computes none of it: it stores whatever LUT_WRITE is given (R197).
-/

namespace Sys2Proof.Machine

/-- A gamma exponent as the command line may give it (42_gamma_lut.md R197). The exponents that are not finite are three,
each with contents of its own; that a NaN is one exponent, whatever its bits, is the model's choice (log 17). -/
inductive GammaExponent where
  | real (g : ℝ)
  | posInf
  | negInf
  | nan

/-- `n` may be `gamma_fn(g, v)`: for `g > 0` a nearest integer of `255 * (v/255)^g`, either neighbour at a tie
(42_gamma_lut.md R193, 92_eei_decisions.md D11); otherwise any byte (R197, D28). For `g > 0` the clamp never acts (R196). -/
def GammaAllows (e : GammaExponent) (v n : Byte) : Prop :=
  match e with
  | .real g => 0 < g → |255 * ((v.toNat : ℝ) / 255) ^ g - (n.toNat : ℝ)| ≤ 1 / 2
  | .posInf => True
  | .negInf => True
  | .nan => True

/-- A whole table that may be the reference contents for an exponent. -/
def IsGammaTable (e : GammaExponent) (f : Byte → Byte) : Prop :=
  ∀ v, GammaAllows e v (f v)

/-- `gamma_fn`, the configuration function of 42_gamma_lut.md R193: any function of exponent and value that keeps to what
that rule and R197 fix. What they leave open (ties, exponents not above 0) is the parameter's. -/
structure GammaFn where
  fn : GammaExponent → Byte → Byte
  allowed : ∀ e, IsGammaTable e (fn e)

/-- The table of 95_test_vectors.md T31, row `k` starting at `v = 16k`. -/
def gamma22Rows : List (List Nat) :=
  [[0, 0, 0, 0, 0, 0, 0, 0, 0, 0, 0, 0, 0, 0, 0, 1],
   [1, 1, 1, 1, 1, 1, 1, 1, 1, 2, 2, 2, 2, 2, 2, 2],
   [3, 3, 3, 3, 3, 4, 4, 4, 4, 5, 5, 5, 5, 6, 6, 6],
   [6, 7, 7, 7, 8, 8, 8, 9, 9, 9, 10, 10, 11, 11, 11, 12],
   [12, 13, 13, 13, 14, 14, 15, 15, 16, 16, 17, 17, 18, 18, 19, 19],
   [20, 20, 21, 22, 22, 23, 23, 24, 25, 25, 26, 26, 27, 28, 28, 29],
   [30, 30, 31, 32, 33, 33, 34, 35, 35, 36, 37, 38, 39, 39, 40, 41],
   [42, 43, 43, 44, 45, 46, 47, 48, 49, 49, 50, 51, 52, 53, 54, 55],
   [56, 57, 58, 59, 60, 61, 62, 63, 64, 65, 66, 67, 68, 69, 70, 71],
   [73, 74, 75, 76, 77, 78, 79, 81, 82, 83, 84, 85, 87, 88, 89, 90],
   [91, 93, 94, 95, 97, 98, 99, 100, 102, 103, 105, 106, 107, 109, 110, 111],
   [113, 114, 116, 117, 119, 120, 121, 123, 124, 126, 127, 129, 130, 132, 133, 135],
   [137, 138, 140, 141, 143, 145, 146, 148, 149, 151, 153, 154, 156, 158, 159, 161],
   [163, 165, 166, 168, 170, 172, 173, 175, 177, 179, 181, 182, 184, 186, 188, 190],
   [192, 194, 196, 197, 199, 201, 203, 205, 207, 209, 211, 213, 215, 217, 219, 221],
   [223, 225, 227, 229, 231, 234, 236, 238, 240, 242, 244, 246, 248, 251, 253, 255]]

/-- `gamma_fn(2.2, v)` (95_test_vectors.md T31). -/
def gamma22 (v : Byte) : Byte :=
  BitVec.ofNat 8 (((gamma22Rows.getD (v.toNat / 16) []).getD (v.toNat % 16)) 0)

end Sys2Proof.Machine
end

