-- ==== Sys2Proof/Machine/Parameters.lean ====
section
/-!
DEFINITION. The parameters of the block, all of those 00_scope.md R6 and 44_dataflow.md R242 name.
-/

namespace Sys2Proof.Machine

/-- The parameters of the block (00_scope.md R6). A state holds the first two as plain data (`State.cfg`, the number of
`State.fds`); `gamma_fn` is a function, and only the pseudo-operation GAMMA uses it. -/
structure Parameters where
  /-- `COLOR_ORDER`, `DIAG_LEVEL` and `accept_addr`. -/
  config : Config
  /-- `N_SOURCES`. -/
  nSources : Nat
  /-- `gamma_fn` (42_gamma_lut.md R193). -/
  gammaFn : GammaFn

/-- The block with these parameters, right after reset (10_state.md R35). -/
def Parameters.initial (P : Parameters) : State :=
  State.initial P.config P.nSources

end Sys2Proof.Machine
end

