-- ==== Sys2Proof/Machine/Run.lean ====
section
/-!
DEFINITION. Operation sequences applied in order (00_scope.md R7, R8).
-/

namespace Sys2Proof.Machine

/-- Apply operations one at a time, in order; a run ends with its sequence (00_scope.md R8). -/
def runOps : List Instr → State → Result
  | [], s => .next s
  | i :: rest, s => Result.andThen (exec i s) (runOps rest)

/-- Apply bytes of one connection to source `src` with any handler (44_dataflow.md R243). -/
def runBytesWith (h : Handler) (src : Nat) : List Byte → State → Result
  | [], s => .next s
  | b :: rest, s => (fdByteWith h src b s).andThen (runBytesWith h src rest)

end Sys2Proof.Machine
end

