-- ==== Sys2Proof/Machine/Stimulus.lean ====
section
/-!
DEFINITION. The pseudo-operations (30_encoding.md R106), the outcomes of a poll (41_link_events.md R174, R176) and the
order of simultaneous inputs (60_exceptions.md R257), each as the operation sequence it stands for.
-/

namespace Sys2Proof.Machine

/-- `CHUNK x1 x2 ... xk`, `k >= 1`: its bytes one by one (40_frame_decoder.md R139). -/
def chunkOps (src : Nat) (x : Byte) (xs : List Byte) : List Instr :=
  (x :: xs).map (.fdByte src)

/-- `READ0`: a read that returned 0 or less, or failed (30_encoding.md R106). -/
def read0Ops (src : Nat) : List Instr :=
  [.fdClose src]

/-- `RESYNC`, the source's `reset(sourceId)` (41_link_events.md R172). -/
def resyncOps (src : Nat) : List Instr :=
  [.fdClose src]

/-- The bytes of a frame: address, command, length high byte first, payload (30_encoding.md R90, R106). -/
def frameBytes (a c : Byte) (payload : List Byte) : List Byte :=
  a :: c :: BitVec.ofNat 8 (payload.length / 256) :: BitVec.ofNat 8 (payload.length % 256) :: payload

/-- `FRAME a c x1 ... xL` (30_encoding.md R106). -/
def frameOps (src : Nat) (a c : Byte) (payload : List Byte) : List Instr :=
  (frameBytes a c payload).map (.fdByte src)

/-- The 256 writes of one table. -/
def tableOps (c : BitVec 2) (f : Byte → Byte) : List Instr :=
  (List.range 256).map fun v => .lutWrite c (BitVec.ofNat 8 v) (f (BitVec.ofNat 8 v))

/-- The 768 writes that load three given tables. -/
def loadTablesOps (fR fG fB : Byte → Byte) : List Instr :=
  tableOps chanR fR ++ tableOps chanG fG ++ tableOps chanB fB

/-- `GAMMA gR gG gB`, the source's GAMMA_BUILD: `LUT_WRITE(c, v, gamma_fn(g_c, v))` for every channel and value
(42_gamma_lut.md R194), with the block's `gamma_fn` (log 17). -/
def gammaOps (P : Parameters) (gR gG gB : GammaExponent) : List Instr :=
  loadTablesOps (P.gammaFn.fn gR) (P.gammaFn.fn gG) (P.gammaFn.fn gB)

/-- `LUTID`: the identity tables (42_gamma_lut.md R195). -/
def lutIdOps : List Instr :=
  loadTablesOps id id id

/-- The diagnostic pixel of the draw `k` at a level (43_wire_encoder.md R221; log 18). -/
def diagPixel (level : Byte) (k : Fin 3) : Pixel :=
  match k with
  | 0 => ⟨level, 0, 0⟩
  | 1 => ⟨0, level, 0⟩
  | 2 => ⟨0, 0, level⟩

/-- `DIAG` of the draw `k`, at the block's `DIAG_LEVEL` (43_wire_encoder.md R221). -/
def diagOps (P : Parameters) (k : Fin 3) : List Instr :=
  [.weEncode [diagPixel P.config.diagLevel k]]

/-- What may happen in one call of `poll`, or `reset(sourceId)` in its place (41_link_events.md R174). -/
inductive PollOutcome where
  /-- The listening socket was ready and the accept succeeded. -/
  | accepted
  /-- A read returned one or more bytes. -/
  | bytes (x : Byte) (xs : List Byte)
  /-- A read returned 0 or a negative count, or an error. -/
  | ended
  /-- Nothing was ready within the timeout. -/
  | timedOut
  /-- `reset(sourceId)` was called. -/
  | resetCalled
deriving DecidableEq, Repr

/-- The operations a poll's outcome applies to source `src` (41_link_events.md R174). -/
def PollOutcome.ops (src : Nat) : PollOutcome → List Instr
  | .accepted => [.fdOpen src]
  | .bytes x xs => chunkOps src x xs
  | .ended => read0Ops src
  | .timedOut => [.fdTimeout src]
  | .resetCalled => resyncOps src

/-- Which outcomes the transport can offer while `conn` has this value (41_link_events.md R174). -/
def PollOutcome.possible (conn : Bool) : PollOutcome → Bool
  | .accepted => !conn
  | .bytes _ _ => conn
  | .ended => conn
  | .timedOut => true
  | .resetCalled => true

/-- The `timedOut` half of a poll's result (41_link_events.md R176). -/
def PollOutcome.isTimedOut : PollOutcome → Bool
  | .timedOut => true
  | _ => false

/-- Inputs of an implementation that can be asserted together (60_exceptions.md R257). -/
structure Strobes where
  reset : Bool
  byte : Option Byte
  close : Bool
  opened : Bool
  lutWrite : Option (BitVec 2 × Byte × Byte)
  encode : Option (List Pixel)
deriving DecidableEq, Repr

/-- The order in which simultaneous inputs act: a RESET supersedes everything; otherwise FD_BYTE, FD_CLOSE, FD_OPEN, and
LUT_WRITE before WE_ENCODE (60_exceptions.md R257). The model's choices, which the rule leaves open (log 20): the RESET
asserted here is that of the whole block, and the decoder's inputs go before the encoder's. -/
def Strobes.ops (src : Nat) (x : Strobes) : List Instr :=
  if x.reset then [.reset none]
  else
    x.byte.toList.map (.fdByte src)
      ++ (if x.close then [.fdClose src] else [])
      ++ (if x.opened then [.fdOpen src] else [])
      ++ x.lutWrite.toList.map (fun (c, v, val) => .lutWrite c v val)
      ++ x.encode.toList.map .weEncode

end Sys2Proof.Machine
end

