-- ==== Sys2Proof/Safety.lean ====
section
/-!
DEFINITION. What counts as a well-formed state (10_state.md R33), an enabled operation (40_frame_decoder.md R137 and the
enable conditions of each operation), loaded tables (42_gamma_lut.md R198) and a safe run, in the terms claims use.
-/

namespace Sys2Proof.Machine

/-- Invariants I-a to I-d of one decoder (10_state.md R33), with the shape of its payload buffer: canonical, inside
`pay[0..65534]` (R24), and holding every byte received for the current frame. -/
structure FD.Inv (fd : FD) : Prop where
  hdrCntRange : fd.hdrCnt.toNat ≤ 4
  headerNoPayload : fd.hdrCnt.toNat < 4 → fd.payCnt = 0
  payloadOpen : fd.hdrCnt.toNat = 4 → 1 ≤ fd.payLen.toNat ∧ fd.payCnt.toNat < fd.payLen.toNat
  disconnectedClear : fd.conn = false → fd.hdrCnt = 0 ∧ fd.payCnt = 0
  payWf : fd.pay.wf (Config.payCap - 1) = true
  payHeld : ∀ j, j < fd.payCnt.toNat → (fd.pay.read j).isSome = true

/-- Invariant I-e of the wire encoder (10_state.md R33), with the shape of its memories. -/
structure WE.Inv (we : WE) : Prop where
  outLenForm : we.outLen = 0 ∨ ∃ n, n ≤ Config.pixMax ∧ we.outLen.toNat = 4 + 4 * n
  outPreamble : 4 ≤ we.outLen.toNat → ∀ k, k < 4 → we.out.read k = some 0
  outHeld : ∀ k, k < we.outLen.toNat → (we.out.read k).isSome = true
  lutWf : we.lut.wf Config.lutCap = true
  outWf : we.out.wf Config.outCap = true

/-- The invariant of the block (10_state.md R33). -/
structure State.Inv (s : State) : Prop where
  decoders : ∀ fd ∈ s.fds, fd.Inv
  encoder : s.we.Inv

/-- The operation's enable condition in a state, as its rule gives it. A frame command is enabled for a decoder that
exists (it runs inside FD_BYTE only, log 23). -/
def Enabled (i : Instr) (s : State) : Prop :=
  match i with
  | .fdTimeout src => src < s.fds.length
  | .fdOpen src => ∃ fd, s.fds[src]? = some fd ∧ fd.conn = false
  | .fdByte src _ => ∃ fd, s.fds[src]? = some fd ∧ fd.conn = true
  | .fdClose src => src < s.fds.length
  | .lutWrite c _ _ => c ≠ 3#2
  | .weEncode px => px.length ≤ Config.pixMax
  | .reset (some src) => src < s.fds.length
  | .reset none => True
  | .setPixels src _ _ => src < s.fds.length
  | .cmdOther src _ _ _ => src < s.fds.length

/-- All 768 table entries have been written since reset (42_gamma_lut.md R198). -/
def WE.Loaded (we : WE) : Prop :=
  ∀ c : BitVec 2, c ≠ 3#2 → ∀ v : Byte, (we.lut.read (lutAddr c v)).isSome = true

/-- The tables hold `g` (42_gamma_lut.md R192). -/
def WE.Holds (we : WE) (g : BitVec 2 → Byte → Byte) : Prop :=
  ∀ c : BitVec 2, c ≠ 3#2 → ∀ v : Byte, we.lut.read (lutAddr c v) = some (g c v)

/-- A function that gives every written table entry its byte, and an unwritten one any byte. -/
def WE.Agrees (we : WE) (g : BitVec 2 → Byte → Byte) : Prop :=
  ∀ c v b, we.lut.read (c.toNat * 256 + v.toNat) = some b → g c v = b

/-- The control byte of a corrected pixel by the arithmetic of 43_wire_encoder.md R213. -/
def specControl (r g b : Byte) : Byte :=
  BitVec.ofNat 8 (0xFF - 16 * (r.toNat / 64) - 4 * (g.toNat / 64) - b.toNat / 64)

/-- The record of a raw pixel under the tables `g` (30_encoding.md R96 to R98). -/
def specRecord (order : ColorOrder) (g : BitVec 2 → Byte → Byte) (p : Pixel) : List Byte :=
  match order with
  | .rgb => [specControl (g 0 p.r) (g 1 p.g) (g 2 p.b), g 0 p.r, g 1 p.g, g 2 p.b]
  | .bgr => [specControl (g 0 p.r) (g 1 p.g) (g 2 p.b), g 2 p.b, g 1 p.g, g 0 p.r]

/-- The output buffer of a pixel sequence under the tables `g` (30_encoding.md R96). -/
def specBuffer (order : ColorOrder) (g : BitVec 2 → Byte → Byte) (px : List Pixel) : List Byte :=
  [0, 0, 0, 0] ++ px.flatMap (specRecord order g)

/-- The pixels of a payload, whole triplets from its start (30_encoding.md R95). -/
def payloadPixels : List Byte → List Pixel
  | r :: g :: b :: rest => ⟨r, g, b⟩ :: payloadPixels rest
  | _ => []

/-- The events of one completed frame in the reference composition (44_dataflow.md R240): `FrameDone`, for command 1
`Pixels`, and for an accepted address `SerialWrite`. -/
def frameEvents (cfg : Config) (g : BitVec 2 → Byte → Byte) (addr cmd : Byte) (payload : List Byte) : List Event :=
  .frameDone addr cmd (BitVec.ofNat 16 payload.length) ::
    if cmd = 1 then
      .pixels addr (payload.length / 3) (payloadPixels payload) ::
        if cfg.accepts addr then
          [.serialWrite (specBuffer cfg.colorOrder g (payloadPixels payload)) (4 + 4 * (payload.length / 3))]
        else []
    else []

/-- A complete frame (30_encoding.md R90). -/
structure Frame where
  addr : Byte
  cmd : Byte
  payload : List Byte
deriving DecidableEq, Repr

/-- The bytes of a frame on the inbound stream (30_encoding.md R90). -/
def Frame.bytes (f : Frame) : List Byte :=
  frameBytes f.addr f.cmd f.payload

/-- The length a header declares for a frame's payload fits 16 bits (30_encoding.md R94). -/
def Frame.Fits (f : Frame) : Prop :=
  f.payload.length ≤ 65535

/-- A byte string that is the start of a frame but not the whole of it (30_encoding.md R104). -/
def Incomplete (tail : List Byte) : Prop :=
  tail.length < 4 ∨
    ∃ a c hi lo rest, tail = a :: c :: hi :: lo :: rest ∧ rest.length < hi.toNat * 256 + lo.toNat

/-- The bytes an operation sequence delivers to a source. -/
def deliveredTo (src : Nat) (ops : List Instr) : List Byte :=
  ops.filterMap fun i =>
    match i with
    | .fdByte k b => if k = src then some b else none
    | _ => none

/-- Only bytes for one source, and timed-out polls of any source (44_dataflow.md R244). -/
def OnlyBytesAndTimeouts (src n : Nat) (ops : List Instr) : Prop :=
  ∀ i ∈ ops, (∃ b, i = .fdByte src b) ∨ ∃ k, k < n ∧ i = .fdTimeout k

/-- The byte `b` is the last one of the frame the decoder is receiving (40_frame_decoder.md R131 to R133). -/
def Completes (fd : FD) (b : Byte) : Prop :=
  (fd.hdrCnt = 3 ∧ fd.hdrLenHi = 0 ∧ b = 0) ∨
    (4 ≤ fd.hdrCnt.toNat ∧ fd.payCnt.toNat + 1 = fd.payLen.toNat)

/-- The operation writes to the serial device in this state: it is an admitted encode, or dispatches a command-1 frame of
an accepted address (44_dataflow.md R240). -/
def Writes (i : Instr) (s : State) : Prop :=
  match i with
  | .fdTimeout _ => False
  | .fdOpen _ => False
  | .fdByte src b => ∃ fd, s.fds[src]? = some fd ∧ fd.conn = true ∧ Completes fd b ∧
      fd.hdrCmd = Config.cmdSetPixels ∧ s.cfg.accepts fd.hdrAddr = true
  | .fdClose _ => False
  | .lutWrite _ _ _ => False
  | .weEncode px => px.length ≤ Config.pixMax
  | .reset _ => False
  | .setPixels src addr _ => src < s.fds.length ∧ s.cfg.accepts addr = true
  | .cmdOther _ _ _ _ => False

/-- An operation of a handler that the block does not refuse and that the handler returns from
(42_gamma_lut.md R191, 43_wire_encoder.md R211). -/
def WeOp.Admitted (op : WeOp) : Prop :=
  match op with
  | .encode px => px.length ≤ Config.pixMax
  | .lutWrite c _ _ => c ≠ 3#2
  | .hang => False

/-- `new` holds a fault for each entry that an encode of `px` looks up unwritten, red in table 0, green in 1, blue in 2,
and no other (42_gamma_lut.md R198). -/
def UnwrittenLookups (we : WE) (px : List Pixel) (new : List Fault) : Prop :=
  ∀ f, f ∈ new ↔ ∃ c v, f = .unwrittenLutEntry c v ∧ we.lut.read (c.toNat * 256 + v.toNat) = none ∧
    ∃ p ∈ px, (c = 0#2 ∧ v = p.r) ∨ (c = 1#2 ∧ v = p.g) ∨ (c = 2#2 ∧ v = p.b)

/-- What an encode of `px` with tables `g` has done to everything of the block but its trace and its decoders: `out` holds
the buffer and is as before beyond it, `out_len` is its length, one result is returned, the unwritten entries looked up are
recorded, one write has been made and one value drawn (43_wire_encoder.md R210, R219; log 5, 9). -/
structure EncodeEffect (g : BitVec 2 → Byte → Byte) (px : List Pixel) (s t : State) : Prop where
  outLen : t.we.outLen = BitVec.ofNat 17 (4 + 4 * px.length)
  out : ∀ k, t.we.out.read k =
    if k < 4 + 4 * px.length then (specBuffer s.cfg.colorOrder g px)[k]? else s.we.out.read k
  lut : t.we.lut = s.we.lut
  seed : t.we.seed = s.we.seed
  returns : ∃ ok, t.returns = s.returns ++ [ok]
  faults : ∃ new, t.faults = s.faults ++ new ∧ UnwrittenLookups s.we px new
  draws : t.draws = s.draws + 1
  writer : t.writer = s.writer.afterWrite
  cfg : t.cfg = s.cfg
  input : t.input = s.input

/-- No encode has happened between two states: the encoder, the results, the faults, the draws, the writer, the
configuration and the input are as before. -/
structure NoEncode (s t : State) : Prop where
  we : t.we = s.we
  returns : t.returns = s.returns
  faults : t.faults = s.faults
  draws : t.draws = s.draws
  writer : t.writer = s.writer
  cfg : t.cfg = s.cfg
  input : t.input = s.input

/-- Two decoders that differ in stale bytes only (10_state.md R34). -/
structure FD.Agree (a b : FD) : Prop where
  conn : a.conn = b.conn
  hdrCnt : a.hdrCnt = b.hdrCnt
  payCnt : a.payCnt = b.payCnt
  hdrAddr : 0 < a.hdrCnt.toNat → a.hdrAddr = b.hdrAddr
  hdrCmd : 1 < a.hdrCnt.toNat → a.hdrCmd = b.hdrCmd
  hdrLenHi : 2 < a.hdrCnt.toNat → a.hdrLenHi = b.hdrLenHi
  hdrLenLo : 3 < a.hdrCnt.toNat → a.hdrLenLo = b.hdrLenLo
  pay : ∀ j, j < a.payCnt.toNat → a.pay.read j = b.pay.read j

/-- Two states that differ in stale bytes only (10_state.md R34). -/
structure State.Agree (s t : State) : Prop where
  decoders : List.Forall₂ FD.Agree s.fds t.fds
  lut : s.we.lut = t.we.lut
  seed : s.we.seed = t.we.seed
  outLen : s.we.outLen = t.we.outLen
  out : ∀ k, k < s.we.outLen.toNat → s.we.out.read k = t.we.out.read k
  cfg : s.cfg = t.cfg
  trace : s.trace = t.trace
  returns : s.returns = t.returns
  faults : s.faults = t.faults
  draws : s.draws = t.draws
  writer : s.writer = t.writer
  input : s.input = t.input

/-- The state without the drawn write results (43_wire_encoder.md R219). -/
def State.withoutResults (s : State) : State :=
  { s with returns := [], draws := 0 }

/-- A run that ends in a next state with no fault recorded. -/
def SafeRun (ops : List Instr) (s : State) : Prop :=
  ∃ t, runOps ops s = .next t ∧ t.faults = []

/-- The sources whose decoder an operation may change. -/
def touches (i : Instr) (k : Nat) : Prop :=
  match i with
  | .fdTimeout src => k = src
  | .fdOpen src => k = src
  | .fdByte src _ => k = src
  | .fdClose src => k = src
  | .lutWrite _ _ _ => False
  | .weEncode _ => False
  | .reset (some src) => k = src
  | .reset none => True
  | .setPixels _ _ _ => False
  | .cmdOther _ _ _ _ => False

end Sys2Proof.Machine
end

