-- ==== Sys2Proof/Certificates/Slice0/Obligations.lean ====
section
/-!
DEFINITION. The statements for the provers. Each docstring names the rules of spec/ it rests on. Fields that are the
model's own (log 8 to 11, 16) are named in a statement only where it says they are unchanged or only grow, what one encode
does to them, or that the serial writer returns, the duty of 60_exceptions.md R270 without which no operation that writes
completes (70_reset_and_hazards.md R290; log 16).
-/

open Sys2Proof Sys2Proof.Machine

/-! Reset and the invariant. -/

/-- 10_state.md R35: what the block holds right after reset, for every configuration and number of sources: `conn`, the
counters and `out_len` zero, no memory cell written. The rest is the model's choice: that the unspecified cells are ones
nothing has written (log 4 DESIGN CHOICE for `pay`, log 6 DEDUCED for `out`, log 5 for `lut`), that the trace starts empty
(log 22 DESIGN CHOICE), and that `State.reset` has one source and some configuration (log 1, 2). What `hdr` holds is log
3's choice and is not stated. -/
def Obligations.ResetLeavesSpecifiedValues : Prop :=
  (∀ cfg n, (State.initial cfg n).fds.length = n ∧
    (∀ fd ∈ (State.initial cfg n).fds, fd.conn = false ∧ fd.hdrCnt = 0 ∧ fd.payCnt = 0 ∧ ∀ a, fd.pay.read a = none) ∧
    (State.initial cfg n).we.outLen = 0 ∧
    (∀ a, (State.initial cfg n).we.lut.read a = none) ∧
    (∀ a, (State.initial cfg n).we.out.read a = none) ∧
    (State.initial cfg n).trace = []) ∧
  ∃ cfg, State.reset = State.initial cfg 1

/-- 10_state.md R33, its first half: the invariants hold in the reset state, for every configuration and number of
sources. -/
def Obligations.InvariantHoldsAtReset : Prop :=
  State.reset.Inv ∧ ∀ cfg n, (State.initial cfg n).Inv

/-- 10_state.md R33: the invariants I-a to I-e, with canonical memories inside their spaces (20_memory.md R70) and
`pay[65535]` never written (10_state.md R24), hold in the reset state and are preserved by every operation and by every
step, from every state that meets them. -/
def Obligations.InvariantPreservedByEveryOperation : Prop :=
  (∀ cfg n, (State.initial cfg n).Inv) ∧
  (∀ (i : Instr) (s t : State), s.Inv → exec i s = .next t → t.Inv) ∧
  (∀ s t : State, s.Inv → step s = .next t → t.Inv)

/-- 70_reset_and_hazards.md R280, with log 7's reading (DEDUCED) that RESET of one decoder leaves the encoder, and log 8's
that unspecified cells are unwritten ones: RESET of the whole block is always enabled, zeroes `conn`, the counters and `out_len`,
leaves no buffer or table cell defined and emits nothing; RESET of one decoder does so to that decoder's FD half and leaves
every other decoder and the encoder as they are. -/
def Obligations.ResetOperationZeroesState : Prop :=
  (∀ s : State, ∃ t, exec (.reset none) s = .next t ∧
    t.fds.length = s.fds.length ∧
    (∀ fd ∈ t.fds, fd.conn = false ∧ fd.hdrCnt = 0 ∧ fd.payCnt = 0 ∧ ∀ a, fd.pay.read a = none) ∧
    t.we.outLen = 0 ∧ (∀ a, t.we.lut.read a = none) ∧ (∀ a, t.we.out.read a = none) ∧
    t.cfg = s.cfg ∧ t.trace = s.trace ∧ t.returns = s.returns ∧ t.faults = s.faults ∧ t.writer = s.writer ∧
    t.input = s.input) ∧
  (∀ (s : State) (src : Nat), src < s.fds.length → ∃ t fd, exec (.reset (some src)) s = .next t ∧
    t.fds = s.fds.set src fd ∧
    fd.conn = false ∧ fd.hdrCnt = 0 ∧ fd.payCnt = 0 ∧ (∀ a, fd.pay.read a = none) ∧
    t.we = s.we ∧ t.cfg = s.cfg ∧ t.trace = s.trace ∧ t.returns = s.returns ∧ t.faults = s.faults ∧
    t.writer = s.writer ∧ t.input = s.input)

/-! Encoding. -/

/-- 30_encoding.md R91, R101: decoding the encoded form of any well-formed operation or frame command gives it back, with
every operand. -/
def Obligations.DecodeOfEncodeIsIdentity : Prop :=
  ∀ i : Instr, i.wf = true → decodeRow (encode i) = .ok i

/-- 30_encoding.md R101: an operation word that decodes is the word of the operation it decodes to, bit for bit; so no two
words of one source stand for one operation, and no bit is ignored. -/
def Obligations.OperationWordIsDeterminedByItsMeaning : Prop :=
  ∀ (w : OpWord) (i : Instr), decode w = .ok i → ∃ w', encode i = .op w' ∧ w'.bits = w.bits

/-- 30_encoding.md R101, R91: words written out bit by bit from the tables decode to what they stand for: the six
operation formats, a pixel, and the header words of 95_test_vectors.md P2. That `1111` with no number is RESET of the whole
block, where R105 makes an absent number instance 0, is the model's choice (log 7, log 12, DESIGN CHOICE). -/
def Obligations.WrittenOutWordsDecode : Prop :=
  decode ⟨some 1, [false, false, false, false]⟩ = .ok (.fdTimeout 1) ∧
  decode ⟨none, [false, false, false, true]⟩ = .ok (.fdOpen 0) ∧
  decode ⟨none, [false, false, true, false, false, false, true, false, true, false, true, false]⟩ =
    .ok (.fdByte 0 0x2A#8) ∧
  decode ⟨none, [false, false, true, true]⟩ = .ok (.fdClose 0) ∧
  decode ⟨none, [false, true, false, false, false, true, true, false, false, false, false, false, false, false,
    false, false, true, true, true, false, false, false]⟩ = .ok (.lutWrite 1#2 0x80#8 0x38#8) ∧
  decode ⟨none, [false, true, false, true, false, false, false, false, false, false, false, false, false, false,
    false, false, false, false, true, false, false, false, false, true, false, true, false, false, false, false, true,
    false, true, false, false, false, false, false, true, true, true, true, false]⟩ =
    .ok (.weEncode [⟨10#8, 20#8, 30#8⟩]) ∧
  decode ⟨none, [true, true, true, true]⟩ = .ok (.reset none) ∧
  decodeHeader 0 0x04010007#32 = .setPixels 0 4#8 7#16 ∧
  decodeHeader 0 0x00020002#32 = .cmdOther 0 0#8 2#8 2#16

/-- 30_encoding.md R102: the header word built from address, command and length bytes selects `SET_PIXELS` exactly when the
command byte is 1, whatever the address and length bits, and hands all fields on. -/
def Obligations.CommandSelectedByCommandByteAlone : Prop :=
  ∀ (src : Nat) (a c : Byte) (len : BitVec 16),
    decodeHeader src (a ++ c ++ len) = if c = 1#8 then .setPixels src a len else .cmdOther src a c len

/-- 30_encoding.md R101, R104: a presented word whose tag is 0x6 to 0xE is refused under its tag, whatever follows it. -/
def Obligations.ReservedTagsRefused : Prop :=
  ∀ (s : State) (src : Option Nat) (tag : BitVec 4) (more : List Bool) (rest : List OpWord),
    6 ≤ tag.toNat → tag.toNat ≤ 14 → s.input = ⟨src, toBits 4 tag.toNat ++ more⟩ :: rest →
    step s = .refused (.reservedTag tag)

/-- 00_scope.md R7: a step takes the next word presented and is `exec` of the operation it decodes to, in the state that
has taken it; nothing else happens. With no word presented the state stays as it is (60_exceptions.md R267). -/
def Obligations.StepRunsDecodedOperation : Prop :=
  (∀ (s : State) (w : OpWord) (rest : List OpWord) (i : Instr), s.input = w :: rest → decode w = .ok i →
    step s = exec i { s with input := rest }) ∧
  (∀ s : State, s.input = [] → step s = .next s)

/-! Completion and refusal. -/

/-- 60_exceptions.md R250 and the enable conditions of 40 R130, 41 R170 to R173, 42 R190, 43 R211, 70 R280: an operation
that is enabled completes in a next state, unless it makes a serial write that never returns (70 R290); one that is not
enabled is refused, and none ends in any other fault. -/
def Obligations.CompletesExactlyWhenEnabled : Prop :=
  ∀ (i : Instr) (s : State),
    (Enabled i s → (Writes i s → s.writer.returns = true) → ∃ t, exec i s = .next t) ∧
    (¬ Enabled i s → ∃ r, exec i s = .refused r) ∧
    (∀ f, exec i s = .fault f → f = .serialWriterBlocked ∧ Writes i s ∧ s.writer.returns = false)

/-- 70_reset_and_hazards.md R290 with 60_exceptions.md R261 and 93_implementation_defined.md U17: an operation that makes a
serial write that never returns is stuck, and so is every run from it. So are, in every composition, a completing FD_BYTE of a
command-1 frame whose handler comes to hang after any admitted encodes and table writes, and every run of bytes from it; if
every write returns, it is the handler that it is stuck on. A dutiful writer (60 R270) stays so, and each write is one of those the writer has left. -/
def Obligations.BlockedWriteMakesNoFurtherStep : Prop :=
  (∀ (i : Instr) (rest : List Instr) (s : State), Writes i s → s.writer = .blocksAfter 0 →
    exec i s = .fault .serialWriterBlocked ∧ runOps (i :: rest) s = .fault .serialWriterBlocked) ∧
  (∀ (h : Handler) (src : Nat) (fd : FD) (b : Byte) (s : State), s.fds[src]? = some fd → fd.conn = true →
    Completes fd b → fd.hdrCmd = 1 →
    (∀ n px, ∃ pre post, h fd.hdrAddr n px s.we = pre ++ .hang :: post ∧ ∀ op ∈ pre, op.Admitted) →
    ∃ f, fdByteWith h src b s = .fault f ∧ (∀ rest, runBytesWith h src (b :: rest) s = .fault f) ∧
      (s.writer = .dutiful → f = .handlerBlocked)) ∧
  (∀ (i : Instr) (s t : State), exec i s = .next t →
    (Writes i s → s.writer = .dutiful ∧ t.writer = .dutiful ∨
      ∃ n, s.writer = .blocksAfter (n + 1) ∧ t.writer = .blocksAfter n) ∧
    (¬ Writes i s → t.writer = s.writer))

/-- The names under which an operation that is not enabled is refused: 40 R130 (U1), 41 R170 (U2), 42 R191 (U15), 43 R211
(U16), 60 R251 E5 (U14). -/
def Obligations.RefusalsByName : Prop :=
  (∀ (s : State) (src : Nat) (fd : FD) (b : Byte), s.fds[src]? = some fd → fd.conn = false →
    exec (.fdByte src b) s = .refused .notConnected) ∧
  (∀ (s : State) (src : Nat) (fd : FD), s.fds[src]? = some fd → fd.conn = true →
    exec (.fdOpen src) s = .refused .alreadyConnected) ∧
  (∀ (s : State) (v val : Byte), exec (.lutWrite 3#2 v val) s = .refused .noSuchTable) ∧
  (∀ (s : State) (px : List Pixel), 21845 < px.length → exec (.weEncode px) s = .refused .tooManyPixels) ∧
  (∀ (s : State) (src : Nat) (b : Byte), s.fds.length ≤ src →
    exec (.fdByte src b) s = .refused .noSuchSource ∧ exec (.fdOpen src) s = .refused .noSuchSource ∧
    exec (.fdClose src) s = .refused .noSuchSource ∧ exec (.fdTimeout src) s = .refused .noSuchSource ∧
    exec (.reset (some src)) s = .refused .noSuchSource)

/-! Link events. -/

/-- 41_link_events.md R173: FD_TIMEOUT is the identity in every state. -/
def Obligations.TimeoutIsIdentity : Prop :=
  ∀ (s : State) (src : Nat), src < s.fds.length → exec (.fdTimeout src) s = .next s

/-- 41_link_events.md R170: FD_OPEN with `conn = 0` zeroes the counters and sets `conn`, and changes nothing else; with
`conn = 1` it is refused. -/
def Obligations.OpenConnectsWithClearedCounters : Prop :=
  ∀ (s : State) (src : Nat) (fd : FD), s.fds[src]? = some fd →
    (fd.conn = false →
      exec (.fdOpen src) s =
        .next { s with fds := s.fds.set src { fd with conn := true, hdrCnt := 0, payCnt := 0 } }) ∧
    (fd.conn = true → exec (.fdOpen src) s = .refused .alreadyConnected)

/-- 41_link_events.md R171: FD_CLOSE in every state zeroes the counters, clears `conn` and emits `Closed()`, connected or
not, and changes nothing else. -/
def Obligations.CloseDiscardsPartialFrame : Prop :=
  ∀ (s : State) (src : Nat) (fd : FD), s.fds[src]? = some fd →
    exec (.fdClose src) s =
      .next { s with
        fds := s.fds.set src { fd with conn := false, hdrCnt := 0, payCnt := 0 },
        trace := s.trace ++ [.closed] }

/-! The frame decoder. -/

/-- 40_frame_decoder.md R131: a header byte is stored in `hdr[hdr_cnt]` and counted; the fourth, when the declared length is
not 0, opens the payload; nothing else changes and no event is emitted. -/
def Obligations.HeaderByteStoredAtItsCount : Prop :=
  ∀ (s : State) (src : Nat) (fd : FD) (b : Byte), s.fds[src]? = some fd → fd.conn = true →
    (fd.hdrCnt = 0 → exec (.fdByte src b) s =
      .next { s with fds := s.fds.set src { fd with hdrAddr := b, hdrCnt := 1 } }) ∧
    (fd.hdrCnt = 1 → exec (.fdByte src b) s =
      .next { s with fds := s.fds.set src { fd with hdrCmd := b, hdrCnt := 2 } }) ∧
    (fd.hdrCnt = 2 → exec (.fdByte src b) s =
      .next { s with fds := s.fds.set src { fd with hdrLenHi := b, hdrCnt := 3 } }) ∧
    (fd.hdrCnt = 3 → fd.hdrLenHi.toNat * 256 + b.toNat ≠ 0 → exec (.fdByte src b) s =
      .next { s with fds := s.fds.set src { fd with hdrLenLo := b, hdrCnt := 4 } })

/-- 40_frame_decoder.md R133: a frame whose header declares length 0 completes inside the FD_BYTE of its fourth header byte:
`FrameDone`, for command 1 `Pixels` with no pixel (R134, R135) and, if the address is accepted (44_dataflow.md R240, R242;
log 14), the encode of no pixels: `out_len` is 4, `out[0..3]` the preamble and every other cell as before, one `SerialWrite`,
one result, no fault. Without an encode the encoder and the results are as before. The counters are zero after it. -/
def Obligations.ZeroLengthFrameCompletesAtFourthHeaderByte : Prop :=
  ∀ (s : State) (src : Nat) (fd : FD), s.fds[src]? = some fd → fd.conn = true → fd.hdrCnt = 3 → fd.hdrLenHi = 0 →
    (fd.hdrCmd = 1 → s.cfg.accepts fd.hdrAddr = true → s.writer.returns = true) →
    ∃ t, exec (.fdByte src 0) s = .next t ∧
      t.fds = s.fds.set src { fd with hdrLenLo := 0, hdrCnt := 0, payCnt := 0 } ∧
      t.trace = s.trace ++
        .frameDone fd.hdrAddr fd.hdrCmd 0 ::
          (if fd.hdrCmd = 1 then
            .pixels fd.hdrAddr 0 [] :: (if s.cfg.accepts fd.hdrAddr then [.serialWrite [0, 0, 0, 0] 4] else [])
          else []) ∧
      t.faults = s.faults ∧
      (fd.hdrCmd = 1 → s.cfg.accepts fd.hdrAddr = true →
        t.we.outLen = 4 ∧ (∀ k, t.we.out.read k = if k < 4 then some 0 else s.we.out.read k) ∧
        ∀ g, EncodeEffect g [] s t) ∧
      (¬ (fd.hdrCmd = 1 ∧ s.cfg.accepts fd.hdrAddr = true) → NoEncode s t)

/-- 40_frame_decoder.md R132: a payload byte that does not complete its frame is stored in `pay[pay_cnt]` and counted; every
other cell of `pay` reads as before, nothing else changes and no event is emitted. -/
def Obligations.PayloadByteStoredAtItsCount : Prop :=
  ∀ (s : State) (src : Nat) (fd : FD) (b : Byte), s.fds[src]? = some fd → fd.conn = true → fd.hdrCnt = 4 →
    fd.payCnt.toNat + 1 ≠ fd.hdrLenHi.toNat * 256 + fd.hdrLenLo.toNat →
    ∃ pay : Mem,
      exec (.fdByte src b) s =
        .next { s with fds := s.fds.set src { fd with pay := pay, payCnt := fd.payCnt + 1 } } ∧
      pay.read fd.payCnt.toNat = some b ∧ ∀ a, a ≠ fd.payCnt.toNat → pay.read a = fd.pay.read a

/-- 40_frame_decoder.md R134, R135, R136 and 44_dataflow.md R240: the payload byte that makes `pay_cnt = pay_len` completes
the frame inside its own operation. With `payload` the bytes received, the events are `FrameDone`, for command 1 `Pixels`
with the whole triplets and, for an accepted address, `SerialWrite` of their encoding under tables that agree with every
written entry; then the counters are zero and `conn` stays. With that `SerialWrite` goes the whole effect of WE_ENCODE, which
R240 puts inside this step: `out_len` is `4 + 4*(len div 3)`, `out` holds the emitted buffer and is as before beyond it, one
result is returned, the unwritten entries looked up are recorded (log 5), and no more. Without it the encoder, the results
and the faults are as before. -/
def Obligations.LastPayloadByteDispatchesFrame : Prop :=
  ∀ (s : State) (src : Nat) (fd : FD) (b : Byte) (payload : List Byte), s.fds[src]? = some fd → fd.conn = true →
    fd.hdrCnt = 4 → payload.length = fd.hdrLenHi.toNat * 256 + fd.hdrLenLo.toNat →
    payload.length = fd.payCnt.toNat + 1 →
    (∀ j, j < fd.payCnt.toNat → fd.pay.read j = payload[j]?) → payload[fd.payCnt.toNat]? = some b →
    (fd.hdrCmd = 1 → s.cfg.accepts fd.hdrAddr = true → s.writer.returns = true) →
    ∃ (t : State) (g : BitVec 2 → Byte → Byte) (pay : Mem), s.we.Agrees g ∧
      exec (.fdByte src b) s = .next t ∧
      t.trace = s.trace ++ frameEvents s.cfg g fd.hdrAddr fd.hdrCmd payload ∧
      t.fds = s.fds.set src { fd with pay := pay, hdrCnt := 0, payCnt := 0 } ∧
      pay.read fd.payCnt.toNat = some b ∧ (∀ a, a ≠ fd.payCnt.toNat → pay.read a = fd.pay.read a) ∧
      (fd.hdrCmd = 1 → s.cfg.accepts fd.hdrAddr = true →
        t.we.outLen.toNat = 4 + 4 * (payload.length / 3) ∧ EncodeEffect g (payloadPixels payload) s t) ∧
      (¬ (fd.hdrCmd = 1 ∧ s.cfg.accepts fd.hdrAddr = true) → NoEncode s t)

/-- 40_frame_decoder.md R135 with 44_dataflow.md R240, R242: the command SET_PIXELS emits `Pixels(addr, len div 3, px)` with
the triplets of the payload held in `pay[0 .. len-1]`, and then is WE_ENCODE of them for an accepted address, completing if
its write returns, and nothing more for another. That the command stands as an arm of its own is the model's reading (log
23), and that the encode is part of it is the reference composition (log 14). -/
def Obligations.SetPixelsReportsWholePixels : Prop :=
  ∀ (s : State) (src : Nat) (fd : FD) (addr : Byte) (len : BitVec 16) (payload : List Byte),
    s.fds[src]? = some fd → payload.length = len.toNat → (∀ j, j < len.toNat → fd.pay.read j = payload[j]?) →
    (s.cfg.accepts addr = false → exec (.setPixels src addr len) s =
      .next { s with trace := s.trace ++ [.pixels addr (len.toNat / 3) (payloadPixels payload)] }) ∧
    (s.cfg.accepts addr = true → exec (.setPixels src addr len) s =
      exec (.weEncode (payloadPixels payload))
        { s with trace := s.trace ++ [.pixels addr (len.toNat / 3) (payloadPixels payload)] }) ∧
    (s.cfg.accepts addr = true → s.writer.returns = true → ∃ t, exec (.setPixels src addr len) s = .next t)

/-- 40_frame_decoder.md R136: the command CMD_OTHER does nothing: no event, no change of state. -/
def Obligations.OtherCommandsDoNothing : Prop :=
  ∀ (s : State) (src : Nat) (addr cmd : Byte) (len : BitVec 16), src < s.fds.length →
    exec (.cmdOther src addr cmd len) s = .next s

/-- The frame of FD_BYTE (10_state.md R20, R22, R24, R34; 40_frame_decoder.md R131, R132): configuration, input, tables and
every other decoder are unchanged; of its own decoder `conn` is unchanged, a header register changes only when the count
selects it, and a payload cell only when it is `pay[pay_cnt]` on the payload path. The encoder, the traces and the faults
change only when the byte completes a command-1 frame of an accepted address, or, for the output trace, any frame. -/
def Obligations.FdByteFrame : Prop :=
  ∀ (s t : State) (src : Nat) (fd : FD) (b : Byte), s.fds[src]? = some fd → exec (.fdByte src b) s = .next t →
    t.cfg = s.cfg ∧ t.input = s.input ∧ t.we.lut = s.we.lut ∧
    (∃ fd', t.fds = s.fds.set src fd' ∧ fd'.conn = fd.conn ∧
      (fd.hdrCnt ≠ 0 → fd'.hdrAddr = fd.hdrAddr) ∧ (fd.hdrCnt ≠ 1 → fd'.hdrCmd = fd.hdrCmd) ∧
      (fd.hdrCnt ≠ 2 → fd'.hdrLenHi = fd.hdrLenHi) ∧ (fd.hdrCnt ≠ 3 → fd'.hdrLenLo = fd.hdrLenLo) ∧
      (fd.hdrCnt.toNat < 4 → ∀ a, fd'.pay.read a = fd.pay.read a) ∧
      (∀ a, a ≠ fd.payCnt.toNat → fd'.pay.read a = fd.pay.read a)) ∧
    (¬ Completes fd b → t.trace = s.trace) ∧
    (¬ (Completes fd b ∧ fd.hdrCmd = 1 ∧ s.cfg.accepts fd.hdrAddr = true) →
      NoEncode s t)

/-- 10_state.md R26 and 41_link_events.md R175: `want` counts the bytes still missing. It is at least 1 while connected; a
byte that is not the last of its buffer lowers it by one; the last header byte sets it to the declared length, or to 4 if
that is 0; the last payload byte sets it to 4. -/
def Obligations.WantCountsMissingBytes : Prop :=
  ∀ (s t : State) (src : Nat) (fd fd' : FD) (b : Byte), fd.Inv → s.fds[src]? = some fd → fd.conn = true →
    exec (.fdByte src b) s = .next t → t.fds[src]? = some fd' →
    1 ≤ fd.want ∧
    (1 < fd.want → fd'.want = fd.want - 1) ∧
    (fd.want = 1 → fd.hdrCnt = 3 → fd.hdrLenHi.toNat * 256 + b.toNat ≠ 0 →
      fd'.want = fd.hdrLenHi.toNat * 256 + b.toNat) ∧
    (fd.want = 1 → (fd.hdrCnt = 3 → fd.hdrLenHi.toNat * 256 + b.toNat = 0) → fd'.want = 4)

/-- 40_frame_decoder.md R137: the state machine. For each state of a decoder and each operation on it: the state after, the
counters, and whether events are emitted or the operation refused. A completing byte completes if the write its handler
makes, if any, returns (60_exceptions.md R270); after the table's events stands, for command 1 and an accepted address, the one
`SerialWrite` of the reference composition (44_dataflow.md R240, R242; log 14), and nothing otherwise. -/
def Obligations.StateMachineFollowsTable : Prop :=
  ∀ (s : State) (src : Nat) (fd : FD), s.fds[src]? = some fd → fd.Inv →
    (fd.phase = .disconnected →
      (∃ t fd', exec (.fdOpen src) s = .next t ∧ t.fds[src]? = some fd' ∧ fd'.phase = .awaitHeader ∧ fd'.hdrCnt = 0 ∧
        t.trace = s.trace) ∧
      (∃ t, exec (.fdClose src) s = .next t ∧ t.fds[src]? = some fd ∧ t.trace = s.trace ++ [.closed]) ∧
      (∀ b, ∃ r, exec (.fdByte src b) s = .refused r)) ∧
    (fd.phase = .awaitHeader → ∀ b,
      (fd.hdrCnt.toNat < 3 → ∃ t fd', exec (.fdByte src b) s = .next t ∧ t.fds[src]? = some fd' ∧
        fd'.phase = .awaitHeader ∧ fd'.hdrCnt = fd.hdrCnt + 1 ∧ t.trace = s.trace) ∧
      (fd.hdrCnt = 3 → fd.hdrLenHi.toNat * 256 + b.toNat ≠ 0 →
        ∃ t fd', exec (.fdByte src b) s = .next t ∧ t.fds[src]? = some fd' ∧
          fd'.phase = .awaitPayload ∧ fd'.payCnt = 0 ∧ t.trace = s.trace) ∧
      (fd.hdrCnt = 3 → fd.hdrLenHi.toNat * 256 + b.toNat = 0 →
        (fd.hdrCmd = 1 → s.cfg.accepts fd.hdrAddr = true → s.writer.returns = true) →
        ∃ t fd', exec (.fdByte src b) s = .next t ∧ t.fds[src]? = some fd' ∧
          fd'.phase = .awaitHeader ∧ fd'.hdrCnt = 0 ∧
          (fd.hdrCmd = 1 →
            t.trace = s.trace ++ [.frameDone fd.hdrAddr fd.hdrCmd 0, .pixels fd.hdrAddr 0 []] ++
              (if s.cfg.accepts fd.hdrAddr then [.serialWrite [0, 0, 0, 0] 4] else [])) ∧
          (fd.hdrCmd ≠ 1 → t.trace = s.trace ++ [.frameDone fd.hdrAddr fd.hdrCmd 0]))) ∧
    (fd.phase = .awaitPayload → ∀ b,
      (fd.payCnt.toNat + 1 < fd.payLen.toNat → ∃ t fd', exec (.fdByte src b) s = .next t ∧ t.fds[src]? = some fd' ∧
        fd'.phase = .awaitPayload ∧ fd'.payCnt.toNat = fd.payCnt.toNat + 1 ∧ t.trace = s.trace) ∧
      (fd.payCnt.toNat + 1 = fd.payLen.toNat →
        (fd.hdrCmd = 1 → s.cfg.accepts fd.hdrAddr = true → s.writer.returns = true) →
        ∃ t fd', exec (.fdByte src b) s = .next t ∧ t.fds[src]? = some fd' ∧
          fd'.phase = .awaitHeader ∧ fd'.hdrCnt = 0 ∧ fd'.payCnt = 0 ∧
          (fd.hdrCmd = 1 → ∃ px buf, px.length = fd.payLen.toNat / 3 ∧
            t.trace = s.trace ++ [.frameDone fd.hdrAddr fd.hdrCmd fd.payLen,
              .pixels fd.hdrAddr (fd.payLen.toNat / 3) px] ++
              (if s.cfg.accepts fd.hdrAddr then [.serialWrite buf (4 + 4 * (fd.payLen.toNat / 3))] else [])) ∧
          (fd.hdrCmd ≠ 1 → t.trace = s.trace ++ [.frameDone fd.hdrAddr fd.hdrCmd fd.payLen]))) ∧
    (fd.phase ≠ .disconnected →
      (∃ t fd', exec (.fdClose src) s = .next t ∧ t.fds[src]? = some fd' ∧ fd'.phase = .disconnected ∧
        fd'.hdrCnt = 0 ∧ fd'.payCnt = 0 ∧ t.trace = s.trace ++ [.closed]) ∧
      (∃ r, exec (.fdOpen src) s = .refused r)) ∧
    exec (.fdTimeout src) s = .next s ∧
    (∃ t fd', exec (.reset (some src)) s = .next t ∧ t.fds[src]? = some fd' ∧ fd'.phase = .disconnected ∧
      fd'.hdrCnt = 0 ∧ fd'.payCnt = 0 ∧ t.trace = s.trace)

/-- 44_dataflow.md R244 (with R139, R142): deliver to a connected decoder at a frame boundary, with tables `g` loaded, the
bytes of any complete frames and then an incomplete one, cut in any way and with timed-out polls of any sources between
them. The events are exactly those of the complete frames, in order; the write results play no part. Every write returns,
the duty of 60_exceptions.md R270. -/
def Obligations.ConnectionEventsAreThoseOfItsFrames : Prop :=
  ∀ (s : State) (src : Nat) (fd : FD) (g : BitVec 2 → Byte → Byte) (frames : List Frame) (tail : List Byte)
    (ops : List Instr),
    s.fds[src]? = some fd → fd.Inv → fd.conn = true → fd.hdrCnt = 0 → s.we.Holds g → s.writer = .dutiful →
    (∀ f ∈ frames, f.Fits) → Incomplete tail → OnlyBytesAndTimeouts src s.fds.length ops →
    deliveredTo src ops = frames.flatMap Frame.bytes ++ tail →
    ∃ t, runOps ops s = .next t ∧
      t.trace = s.trace ++ frames.flatMap (fun f => frameEvents s.cfg g f.addr f.cmd f.payload)

/-- 30_encoding.md R104: there is no illegal inbound byte string. Every one parses into complete frames and at most one
incomplete one, and a connected decoder at a frame boundary takes all of it without refusal and reports those frames, every
write returning (60_exceptions.md R270). -/
def Obligations.EveryByteStringIsDecoded : Prop :=
  ∀ (s : State) (src : Nat) (fd : FD) (g : BitVec 2 → Byte → Byte) (bytes : List Byte),
    s.fds[src]? = some fd → fd.Inv → fd.conn = true → fd.hdrCnt = 0 → s.we.Holds g → s.writer = .dutiful →
    ∃ (frames : List Frame) (tail : List Byte) (t : State),
      bytes = frames.flatMap Frame.bytes ++ tail ∧ (∀ f ∈ frames, f.Fits) ∧ Incomplete tail ∧
      runOps (bytes.map (.fdByte src)) s = .next t ∧
      t.trace = s.trace ++ frames.flatMap (fun f => frameEvents s.cfg g f.addr f.cmd f.payload)

/-- 10_state.md R34 (with 30_encoding.md R104): stale bytes never influence an output event. Two states that meet the
invariant and differ only in header bytes, payload cells and output cells beyond their counters answer every operation alike,
with the same events, and still differ in stale bytes only. The bare command SET_PIXELS, which runs only inside a
completion, is the one row not covered. -/
def Obligations.StaleBytesNeverInfluenceEvents : Prop :=
  ∀ (i : Instr) (s s' t : State), s.Inv → s'.Inv → s.Agree s' → (∀ src addr len, i ≠ .setPixels src addr len) →
    exec i s = .next t → ∃ t', exec i s' = .next t' ∧ t.Agree t'

/-- 44_dataflow.md R243: a handler has no access to decoder state. Whatever two handlers do, a byte leaves the decoders,
the configuration and the input the same under both. -/
def Obligations.HandlerCannotChangeDecoders : Prop :=
  ∀ (h h' : Handler) (src : Nat) (b : Byte) (s t t' : State),
    fdByteWith h src b s = .next t → fdByteWith h' src b s = .next t' →
    t.fds = t'.fds ∧ t.cfg = t'.cfg ∧ t.input = t'.input

/-- 41_link_events.md R174: whatever a poll of a source, or `reset(sourceId)`, can bring while `conn` has its value, none of
its operations is refused; and if every write returns (60_exceptions.md R270) they all complete. -/
def Obligations.PollOutcomesAreNeverRefused : Prop :=
  ∀ (s : State) (src : Nat) (fd : FD) (o : PollOutcome), s.fds[src]? = some fd → o.possible fd.conn = true →
    (∀ r, runOps (o.ops src) s ≠ .refused r) ∧
    (s.writer = .dutiful → ∃ t, runOps (o.ops src) s = .next t)

/-- 60_exceptions.md R257, the order D19: a byte presented together with a close and an open is decoded first, its events
standing before `Closed()`, and the decoder ends connected with its counters zero. A write that the byte makes returns. -/
def Obligations.SimultaneousByteCloseOpenOrder : Prop :=
  ∀ (s : State) (src : Nat) (fd : FD) (b : Byte), s.fds[src]? = some fd → fd.conn = true →
    (Writes (.fdByte src b) s → s.writer.returns = true) →
    ∃ (u t : State) (fd' : FD), exec (.fdByte src b) s = .next u ∧
      runOps (Strobes.ops src ⟨false, some b, true, true, none, none⟩) s = .next t ∧
      t.trace = u.trace ++ [.closed] ∧ t.fds[src]? = some fd' ∧
      fd'.conn = true ∧ fd'.hdrCnt = 0 ∧ fd'.payCnt = 0

/-! The gamma tables. -/

/-- 42_gamma_lut.md R190, R191: LUT_WRITE stores `val` at entry `(c, v)`; every other cell of the tables reads as before
and nothing else changes; `c = 3` is refused. -/
def Obligations.LutWriteStoresOneEntry : Prop :=
  ∀ (s : State) (c : BitVec 2) (v val : Byte),
    (c ≠ 3#2 → ∃ lut : Mem,
      exec (.lutWrite c v val) s = .next { s with we := { s.we with lut := lut } } ∧
      lut.read (c.toNat * 256 + v.toNat) = some val ∧
      ∀ a, a ≠ c.toNat * 256 + v.toNat → lut.read a = s.we.lut.read a) ∧
    (c = 3#2 → exec (.lutWrite c v val) s = .refused .noSuchTable)

/-- 42_gamma_lut.md R194: writes of different entries may come in any order, the final state is the same. -/
def Obligations.LutWritesOfDifferentEntriesCommute : Prop :=
  ∀ (s : State) (c c' : BitVec 2) (v v' x x' : Byte), s.we.lut.wf 768 = true → c ≠ 3#2 → c' ≠ 3#2 →
    (c, v) ≠ (c', v') →
    ∃ t, runOps [.lutWrite c v x, .lutWrite c' v' x'] s = .next t ∧
      runOps [.lutWrite c' v' x', .lutWrite c v x] s = .next t

/-- 42_gamma_lut.md R194, R195 and 30_encoding.md R106: for every `gamma_fn`, the pseudo-operation GAMMA loads all 768
entries with `gamma_fn(g_c, v)` and changes nothing else, in whatever order its writes come; with equal exponents the
tables are equal (that a NaN is one exponent, and zero one, is the model's choice, log 17). The writes of any three tables load those, and LUTID loads the identity. -/
def Obligations.GammaBuildLoadsTables : Prop :=
  (∀ (P : Parameters) (s : State) (gR gG gB : GammaExponent), ∃ lut : Mem,
    runOps (gammaOps P gR gG gB) s = .next { s with we := { s.we with lut := lut } } ∧
    (∀ v : Byte, lut.read (0 * 256 + v.toNat) = some (P.gammaFn.fn gR v) ∧
      lut.read (1 * 256 + v.toNat) = some (P.gammaFn.fn gG v) ∧
      lut.read (2 * 256 + v.toNat) = some (P.gammaFn.fn gB v)) ∧
    (gR = gG → ∀ v : Byte, lut.read (0 * 256 + v.toNat) = lut.read (1 * 256 + v.toNat)) ∧
    (∀ ops : List Instr, ops.Perm (gammaOps P gR gG gB) → s.we.lut.wf 768 = true →
      runOps ops s = .next { s with we := { s.we with lut := lut } })) ∧
  (∀ (s : State) (fR fG fB : Byte → Byte), ∃ lut : Mem,
    runOps (loadTablesOps fR fG fB) s = .next { s with we := { s.we with lut := lut } } ∧
    (∀ v : Byte, lut.read (0 * 256 + v.toNat) = some (fR v) ∧ lut.read (1 * 256 + v.toNat) = some (fG v) ∧
      lut.read (2 * 256 + v.toNat) = some (fB v))) ∧
  lutIdOps = loadTablesOps (fun v => v) (fun v => v) (fun v => v)

/-- 42_gamma_lut.md R195: the reference contents for exponent 1.0 are the identity, and so GAMMA with 1.0 for every channel
is LUTID. -/
def Obligations.ExponentOneIsIdentity : Prop :=
  (∀ f : Byte → Byte, IsGammaTable (.real 1) f → ∀ v, f v = v) ∧
  (∀ P : Parameters, gammaOps P (.real 1) (.real 1) (.real 1) = lutIdOps)

/-- 42_gamma_lut.md R196: the properties of the reference contents for every exponent `g > 0`, whatever is taken at ties. -/
def Obligations.ReferenceContentsProperties : Prop :=
  ∀ (g : ℝ) (f : Byte → Byte), 0 < g → IsGammaTable (.real g) f →
    f 0 = 0 ∧ f 255 = 255 ∧
    (∀ v w : Byte, v.toNat ≤ w.toNat → (f v).toNat ≤ (f w).toNat) ∧
    (1 < g → ∀ v : Byte, (f v).toNat ≤ v.toNat) ∧
    (g < 1 → ∀ v : Byte, v.toNat ≤ (f v).toNat) ∧
    (∀ v : Byte, 0 ≤ 255 * ((v.toNat : ℝ) / 255) ^ g ∧ 255 * ((v.toNat : ℝ) / 255) ^ g ≤ 255)

/-- 42_gamma_lut.md R193 with 95_test_vectors.md T31: the printed table for 2.2 is the reference contents, and the only
ones. -/
def Obligations.PrintedTableIsGamma22 : Prop :=
  IsGammaTable (.real (11 / 5)) gamma22 ∧ ∀ f, IsGammaTable (.real (11 / 5)) f → ∀ v, f v = gamma22 v

/-! The wire encoder. -/

/-- 43_wire_encoder.md R210, R211 (with R212 to R215, R218, R219): WE_ENCODE of at most 21845 pixels whose write returns
completes; with tables `g` that agree with every written entry, the buffer (preamble, then per pixel the control byte
`0xFF - 16*r' - 4*g' - b'` of the top two bits and the colour bytes in `COLOR_ORDER`) fills `out[0 .. out_len-1]`, every
other cell of `out` reads as before, and one `SerialWrite` carries it; `ok` is returned and nothing else changes but the
model's own fields. More pixels are refused, and a write that never returns leaves the block stuck (R290). The model's
readings: an unwritten entry gives some byte, is recorded and does not stop the encode (log 5); the draw count (log 8, 9) and
the writer (log 16) go on by one. -/
def Obligations.EncodeWritesPreambleAndRecords : Prop :=
  ∀ (s : State) (px : List Pixel),
    (21845 < px.length → exec (.weEncode px) s = .refused .tooManyPixels) ∧
    (px.length ≤ 21845 → s.writer.returns = false → exec (.weEncode px) s = .fault .serialWriterBlocked) ∧
    (px.length ≤ 21845 → s.writer.returns = true → ∃ (g : BitVec 2 → Byte → Byte) (out : Mem) (ok : Bool) (faults : List Fault), s.we.Agrees g ∧
      exec (.weEncode px) s = .next { s with
        we := { s.we with out := out, outLen := BitVec.ofNat 17 (4 + 4 * px.length) },
        trace := s.trace ++ [.serialWrite (specBuffer s.cfg.colorOrder g px) (4 + 4 * px.length)],
        returns := s.returns ++ [ok], faults := faults, draws := s.draws + 1, writer := s.writer.afterWrite } ∧
      ∀ k, out.read k =
        if k < 4 + 4 * px.length then (specBuffer s.cfg.colorOrder g px)[k]? else s.we.out.read k)

/-- 43_wire_encoder.md R216: no pixels: the preamble alone, no table read and so no fault, in every state, whatever its tables
hold, in which the serial write returns (60_exceptions.md R270). -/
def Obligations.EmptyEncodeSendsPreambleOnly : Prop :=
  ∀ s : State, s.writer.returns = true → ∃ t, exec (.weEncode []) s = .next t ∧ t.we.outLen = 4 ∧
    (∀ k, k < 4 → t.we.out.read k = some 0) ∧
    t.trace = s.trace ++ [.serialWrite [0, 0, 0, 0] 4] ∧ t.faults = s.faults

/-- 42_gamma_lut.md R198 and 93_implementation_defined.md U3: an encode records a fault for exactly the entries it looks up
that were never written since reset, red in table 0, green in 1, blue in 2; with loaded tables it records none. That the
step goes on is log 5's reading of U3. -/
def Obligations.UnwrittenEntryReadIsRecorded : Prop :=
  ∀ (s : State) (px : List Pixel), px.length ≤ 21845 → s.writer.returns = true →
    ∃ (t : State) (new : List Fault), exec (.weEncode px) s = .next t ∧ t.faults = s.faults ++ new ∧
      UnwrittenLookups s.we px new ∧
      (s.we.Loaded → new = [])

/-- 43_wire_encoder.md R222, laws W-a, W-b, W-c, W-d and W-f, of every buffer sent: its length, the zero preamble, the top
bits of each control byte and its agreement with the colour bytes in either order, the raw pixel bytes under identity tables
and `RGB`, and no run of four zero bytes but the preamble. -/
def Obligations.EncoderBufferLaws : Prop :=
  ∀ (s : State) (px : List Pixel), px.length ≤ 21845 → s.writer.returns = true →
    ∃ (t : State) (buf : List Byte), exec (.weEncode px) s = .next t ∧
      t.trace = s.trace ++ [.serialWrite buf (4 + 4 * px.length)] ∧
      t.we.outLen.toNat = 4 + 4 * px.length ∧ buf.length = 4 + 4 * px.length ∧
      (∀ k, k < 4 → buf[k]? = some 0) ∧
      (∀ i, i < px.length → ∃ ctrl x y z,
        buf[4 + 4 * i]? = some ctrl ∧ buf[5 + 4 * i]? = some x ∧ buf[6 + 4 * i]? = some y ∧ buf[7 + 4 * i]? = some z ∧
        ctrl.extractLsb' 6 2 = 3#2 ∧ ctrl.extractLsb' 2 2 = ~~~ y.extractLsb' 6 2 ∧
        (s.cfg.colorOrder = .rgb →
          ctrl.extractLsb' 4 2 = ~~~ x.extractLsb' 6 2 ∧ ctrl.extractLsb' 0 2 = ~~~ z.extractLsb' 6 2) ∧
        (s.cfg.colorOrder = .bgr →
          ctrl.extractLsb' 4 2 = ~~~ z.extractLsb' 6 2 ∧ ctrl.extractLsb' 0 2 = ~~~ x.extractLsb' 6 2) ∧
        (s.we.Holds (fun _ v => v) → s.cfg.colorOrder = .rgb → px[i]? = some ⟨x, y, z⟩)) ∧
      (∀ k, 0 < k → k + 3 < buf.length →
        ¬ (buf[k]? = some 0 ∧ buf[k + 1]? = some 0 ∧ buf[k + 2]? = some 0 ∧ buf[k + 3]? = some 0))

/-- 43_wire_encoder.md R220, R222 law W-e: records are independent. The buffer of a concatenation is the preamble, the
records of the first sequence and the records of the second, each the same as when encoded alone. The tables need not be
loaded: that an unwritten entry gives the same byte at each of its lookups in one state is the model's choice (log 5), on
which 93_implementation_defined.md U3 lets no claim about the hardware rest. -/
def Obligations.RecordsAreIndependent : Prop :=
  ∀ (s : State) (px qx : List Pixel), (px ++ qx).length ≤ 21845 → s.writer.returns = true →
    ∃ (t t1 t2 : State) (r1 r2 : List Byte),
      exec (.weEncode px) s = .next t1 ∧ exec (.weEncode qx) s = .next t2 ∧ exec (.weEncode (px ++ qx)) s = .next t ∧
      t1.trace = s.trace ++ [.serialWrite ([0, 0, 0, 0] ++ r1) (4 + 4 * px.length)] ∧
      t2.trace = s.trace ++ [.serialWrite ([0, 0, 0, 0] ++ r2) (4 + 4 * qx.length)] ∧
      t.trace = s.trace ++ [.serialWrite ([0, 0, 0, 0] ++ r1 ++ r2) (4 + 4 * (px.length + qx.length))]

/-- 43_wire_encoder.md R219: the result of a serial write reaches its caller and nothing else. Two states that differ in
drawn results and the draw count only answer every operation but RESET (whose unspecified contents are draws) alike, up to
the same difference. -/
def Obligations.WriteResultAffectsNoState : Prop :=
  ∀ (i : Instr) (s s' t : State), (∀ src, i ≠ .reset src) → s.withoutResults = s'.withoutResults →
    exec i s = .next t → ∃ t', exec i s' = .next t' ∧ t.withoutResults = t'.withoutResults

/-- 43_wire_encoder.md R221: the pseudo-operation DIAG is one encode of one pixel with the drawn channel at `DIAG_LEVEL`
and the others 0, through the tables. -/
def Obligations.DiagnosticPixelIsOneEncode : Prop :=
  ∀ (P : Parameters) (s : State), s.writer.returns = true →
    (∃ t, runOps (diagOps P 0) s = .next t ∧ exec (.weEncode [⟨P.config.diagLevel, 0, 0⟩]) s = .next t) ∧
    (∃ t, runOps (diagOps P 1) s = .next t ∧ exec (.weEncode [⟨0, P.config.diagLevel, 0⟩]) s = .next t) ∧
    (∃ t, runOps (diagOps P 2) s = .next t ∧ exec (.weEncode [⟨0, 0, P.config.diagLevel⟩]) s = .next t)

/-! The whole block. -/

/-- 10_state.md R36, R29 and 20_memory.md R64: an operation leaves every decoder it does not name as it was, never changes
the number of sources or the configuration, and takes no input. -/
def Obligations.OperationChangesOnlyItsSource : Prop :=
  ∀ (i : Instr) (s t : State), exec i s = .next t →
    t.cfg = s.cfg ∧ t.fds.length = s.fds.length ∧ t.input = s.input ∧
    ∀ k, ¬ touches i k → t.fds[k]? = s.fds[k]?

/-- 00_scope.md R10 and 93_implementation_defined.md part 1: events are only appended, returned results too, and a recorded
fault is never cleared, RESET included. -/
def Obligations.TracesOnlyGrow : Prop :=
  ∀ s t : State, step s = .next t → s.trace <+: t.trace ∧ s.returns <+: t.returns ∧ s.faults <+: t.faults

/-- 70_reset_and_hazards.md R299, 40_frame_decoder.md R140, 41_link_events.md R171: which operation may emit which event.
`SerialWrite` comes from an encode or from a completed command-1 frame, `Pixels` from SET_PIXELS or from a completed
command-1 frame (R134, R135), `Closed` from FD_CLOSE, `FrameDone` from a completing FD_BYTE, at most one in each. -/
def Obligations.EventsComeOnlyFromTheirOperations : Prop :=
  ∀ (i : Instr) (s t : State), exec i s = .next t → ∃ new, t.trace = s.trace ++ new ∧
    (∀ buf len, Event.serialWrite buf len ∈ new →
      (∃ px, i = .weEncode px) ∨ (∃ src addr len, i = .setPixels src addr len) ∨
      (∃ src b fd, i = .fdByte src b ∧ s.fds[src]? = some fd ∧ Completes fd b ∧ fd.hdrCmd = 1)) ∧
    (∀ addr n px, Event.pixels addr n px ∈ new →
      (∃ src len, i = .setPixels src addr len) ∨
      (∃ src b fd, i = .fdByte src b ∧ s.fds[src]? = some fd ∧ Completes fd b ∧ fd.hdrCmd = 1 ∧ fd.hdrAddr = addr)) ∧
    (Event.closed ∈ new → ∃ src, i = .fdClose src) ∧
    (∀ addr cmd len, Event.frameDone addr cmd len ∈ new →
      ∃ src b fd, i = .fdByte src b ∧ s.fds[src]? = some fd ∧ Completes fd b) ∧
    (new.filter (fun e => match e with | .frameDone _ _ _ => true | _ => false)).length ≤ 1

/-- The frame of the encoder's operations (10_state.md R20, 20_memory.md R66): LUT_WRITE and WE_ENCODE leave every decoder
as it was; LUT_WRITE leaves the output buffer, its length and every trace, WE_ENCODE leaves the tables and every cell of
`out` at `4 + 4*n` and beyond. -/
def Obligations.EncoderOperationsFrame : Prop :=
  (∀ (s t : State) (c : BitVec 2) (v val : Byte), exec (.lutWrite c v val) s = .next t →
    t.fds = s.fds ∧ t.cfg = s.cfg ∧ t.input = s.input ∧ t.trace = s.trace ∧ t.returns = s.returns ∧
    t.faults = s.faults ∧ t.draws = s.draws ∧ t.writer = s.writer ∧ t.we.outLen = s.we.outLen ∧ ∀ k, t.we.out.read k = s.we.out.read k) ∧
  (∀ (s t : State) (px : List Pixel), exec (.weEncode px) s = .next t →
    t.fds = s.fds ∧ t.cfg = s.cfg ∧ t.input = s.input ∧ (∀ a, t.we.lut.read a = s.we.lut.read a) ∧
    ∀ k, 4 + 4 * px.length ≤ k → t.we.out.read k = s.we.out.read k)
end

