-- ==== Sys2Proof/Laws/Encoding.lean ====
section
/-!
SUPPORT. The bit strings of operation words: lengths, and a field read back from the bits written for it.
-/

namespace Sys2Proof

@[simp] theorem toBits_length (w x : Nat) : (toBits w x).length = w := by
  induction w with
  | zero => rfl
  | succ w ih => simp [toBits, ih]

theorem ofBits_append (as bs : List Bool) : ofBits (as ++ bs) = ofBits as * 2 ^ bs.length + ofBits bs := by
  induction bs using List.reverseRecOn with
  | nil => simp [ofBits]
  | append_singleton bs b ih =>
    simp only [ofBits, ← List.append_assoc, List.foldl_append, List.foldl_cons, List.foldl_nil] at *
    rw [ih]
    simp only [List.length_append, List.length_singleton, pow_succ]
    ring

theorem ofBits_lt (bs : List Bool) : ofBits bs < 2 ^ bs.length := by
  induction bs using List.reverseRecOn with
  | nil => simp [ofBits]
  | append_singleton bs b ih =>
    rw [ofBits_append]
    have hb : ofBits [b] ≤ 1 := by cases b <;> simp [ofBits]
    simp only [List.length_append, List.length_singleton, pow_succ, pow_zero]
    omega

/-- The bits of a number denote it, within their width. -/
theorem ofBits_toBits (w x : Nat) : ofBits (toBits w x) = x % 2 ^ w := by
  induction w with
  | zero => simp [toBits, ofBits, Nat.mod_one]
  | succ w ih =>
    have h : toBits (w + 1) x = [x.testBit w] ++ toBits w x := rfl
    rw [h, ofBits_append, ih, toBits_length, Nat.mod_pow_succ, Nat.testBit_eq_decide_div_mod_eq]
    rcases Nat.mod_two_eq_zero_or_one (x / 2 ^ w) with hb | hb
    · simp [ofBits, hb]
    · simp [ofBits, hb]
      omega

/-- A field is read back from the bits written for it, and the rest of the word is left. -/
theorem takeField_toBits (w x : Nat) (rest : List Bool) :
    takeField w (toBits w x ++ rest) = .ok (BitVec.ofNat w x, rest) := by
  have hlen : ¬ (toBits w x ++ rest).length < w := by simp
  have hofNat : BitVec.ofNat w (x % 2 ^ w) = BitVec.ofNat w x := by
    apply BitVec.eq_of_toNat_eq; simp
  rw [takeField, if_neg hlen]
  simp [ofBits_toBits, hofNat]

/-- Two neighbouring fields are one field. -/
theorem toBits_append (w v x y : Nat) (hy : y < 2 ^ v) :
    toBits w x ++ toBits v y = toBits (w + v) (x * 2 ^ v + y) := by
  induction w with
  | zero =>
    simp only [toBits, List.nil_append, Nat.zero_add]
    induction v generalizing y with
    | zero => rfl
    | succ v ih =>
      simp only [toBits]
      have hx : (x * 2 ^ (v + 1) + y).testBit v = y.testBit v := by
        rw [show x * 2 ^ (v + 1) + y = 2 ^ (v + 1) * x + y by ring, Nat.testBit_two_pow_mul_add _ hy]
        simp
      rw [hx]
      congr 1
      have aux : ∀ (k a b : Nat), (∀ i < k, a.testBit i = b.testBit i) → toBits k a = toBits k b := by
        intro k
        induction k with
        | zero => intros; rfl
        | succ k ihk =>
          intro a b h
          simp only [toBits]
          rw [h k (by omega), ihk a b (fun i hi => h i (by omega))]
      apply aux
      intro i hi
      rw [show x * 2 ^ (v + 1) + y = 2 ^ (v + 1) * x + y by ring, Nat.testBit_two_pow_mul_add _ hy]
      rw [if_pos (by omega)]
  | succ w ih =>
    have : w + 1 + v = (w + v) + 1 := by omega
    rw [this]
    simp only [toBits, List.cons_append, ih]
    congr 1
    rw [show x * 2 ^ v + y = 2 ^ v * x + y by ring, Nat.testBit_two_pow_mul_add _ hy]
    rw [if_neg (by omega)]
    congr 1
    omega

@[simp] theorem pixelBits_length (p : Pixel) : (pixelBits p).length = 24 := by
  simp [pixelBits]

end Sys2Proof
end

