-- ==== Sys2Proof/Laws/Mem.lean ====
section
/-!
SUPPORT. The laws of a memory space: read after write, and the canonical form kept by every operation.
-/

namespace Sys2Proof.Machine

@[simp] theorem read_nil (a : Nat) : Mem.read [] a = none := rfl

/-- A read after a write to the same cell gives the byte written. -/
@[simp] theorem read_write_same (m : Mem) (a : Nat) (x : Byte) : (m.write a x).read a = some x := by
  induction m with
  | nil => simp [Mem.write, Mem.read]
  | cons c rest ih =>
    obtain ⟨k, y⟩ := c
    simp only [Mem.write]
    split
    · simp [Mem.read]
    · split
      · next h => simp [Mem.read, h]
      · next h => simp [Mem.read, h, ih]

/-- A write leaves every other cell alone. -/
theorem read_write_other {m : Mem} {a b : Nat} (x : Byte) (h : b ≠ a) : (m.write a x).read b = m.read b := by
  induction m with
  | nil => simp [Mem.write, Mem.read, h]
  | cons c rest ih =>
    obtain ⟨k, y⟩ := c
    simp only [Mem.write]
    split
    · simp [Mem.read, h]
    · split
      · next hk => simp [Mem.read, ← hk, h]
      · simp only [Mem.read, ih]

theorem read_write (m : Mem) (a b : Nat) (x : Byte) :
    (m.write a x).read b = if b = a then some x else m.read b := by
  split
  · next h => rw [h, read_write_same]
  · next h => exact read_write_other x h

/-- A weaker lower bound. -/
theorem wfFrom_mono {lo lo' size : Nat} {m : Mem} (h : lo' ≤ lo) (hm : m.wfFrom lo size = true) :
    m.wfFrom lo' size = true := by
  cases m with
  | nil => rfl
  | cons c rest =>
    obtain ⟨k, y⟩ := c
    simp only [Mem.wfFrom, Bool.and_eq_true, decide_eq_true_eq] at *
    exact ⟨⟨by omega, hm.1.2⟩, hm.2⟩

theorem wfFrom_write {lo size a : Nat} {x : Byte} {m : Mem} (hlo : lo ≤ a) (ha : a < size)
    (hm : m.wfFrom lo size = true) : (m.write a x).wfFrom lo size = true := by
  induction m generalizing lo with
  | nil => simp [Mem.write, Mem.wfFrom, hlo, ha]
  | cons c rest ih =>
    obtain ⟨k, y⟩ := c
    simp only [Mem.wfFrom, Bool.and_eq_true, decide_eq_true_eq] at hm
    simp only [Mem.write]
    split
    · next h =>
      simp only [Mem.wfFrom, Bool.and_eq_true, decide_eq_true_eq]
      exact ⟨⟨hlo, ha⟩, ⟨by omega, hm.1.2⟩, hm.2⟩
    · split
      · simp only [Mem.wfFrom, Bool.and_eq_true, decide_eq_true_eq]
        exact hm
      · simp only [Mem.wfFrom, Bool.and_eq_true, decide_eq_true_eq]
        exact ⟨hm.1, ih (by omega) hm.2⟩

/-- A write inside the space keeps the canonical form. -/
theorem wf_write {size a : Nat} {x : Byte} {m : Mem} (ha : a < size) (hm : m.wf size = true) :
    (m.write a x).wf size = true :=
  wfFrom_write (Nat.zero_le a) ha hm

/-- A run of writes inside the space keeps the canonical form. -/
theorem wf_writeSeq {size a : Nat} {xs : List Byte} {m : Mem} (ha : a + xs.length ≤ size)
    (hm : m.wf size = true) : (m.writeSeq a xs).wf size = true := by
  induction xs generalizing a m with
  | nil => exact hm
  | cons x xs ih =>
    simp only [List.length_cons] at ha
    exact ih (by omega) (wf_write (by omega) hm)

@[simp] theorem wf_nil (size : Nat) : Mem.wf size [] = true := rfl

/-- A canonical memory lists nothing below its bound. -/
theorem read_below {lo size a : Nat} {m : Mem} (h : a < lo) (hm : m.wfFrom lo size = true) :
    m.read a = none := by
  induction m generalizing lo with
  | nil => rfl
  | cons c rest ih =>
    obtain ⟨k, y⟩ := c
    simp only [Mem.wfFrom, Bool.and_eq_true, decide_eq_true_eq] at hm
    simp only [Mem.read]
    rw [if_neg (by omega)]
    exact ih (by omega) hm.2

/-- What a run of writes leaves in each cell. -/
theorem read_writeSeq (m : Mem) (a b : Nat) (xs : List Byte) :
    (m.writeSeq a xs).read b = if a ≤ b ∧ b < a + xs.length then xs[b - a]? else m.read b := by
  induction xs generalizing a m with
  | nil => simp [Mem.writeSeq]
  | cons x xs ih =>
    simp only [Mem.writeSeq, ih, read_write, List.length_cons]
    by_cases h1 : b = a
    · subst h1; simp
    · by_cases h2 : a + 1 ≤ b ∧ b < a + 1 + xs.length
      · rw [if_pos h2, if_pos (by omega), show b - a = (b - (a + 1)) + 1 by omega, List.getElem?_cons_succ]
      · rw [if_neg h2, if_neg h1, if_neg (by omega)]

/-- A memory that lists a whole range of addresses. -/
theorem read_map_range' (f : Nat → Byte) (start n a : Nat) :
    Mem.read ((List.range' start n).map (fun k => (k, f k))) a =
      if start ≤ a ∧ a < start + n then some (f a) else none := by
  induction n generalizing start with
  | zero => simp
  | succ n ih =>
    simp only [List.range'_succ, List.map_cons, Mem.read, ih]
    by_cases h : a = start
    · subst h; simp
    · rw [if_neg h]
      by_cases h2 : start + 1 ≤ a ∧ a < start + 1 + n
      · rw [if_pos h2, if_pos (by omega)]
      · rw [if_neg h2, if_neg (by omega)]

/-- Two canonical memories that read alike are equal. -/
theorem ext_of_wfFrom {lo size : Nat} {m n : Mem} (hm : m.wfFrom lo size = true) (hn : n.wfFrom lo size = true)
    (h : ∀ a, m.read a = n.read a) : m = n := by
  induction m generalizing lo n with
  | nil =>
    cases n with
    | nil => rfl
    | cons c rest => have := h c.1; simp [Mem.read] at this
  | cons c rest ih =>
    obtain ⟨k, y⟩ := c
    cases n with
    | nil => have := h k; simp [Mem.read] at this
    | cons d rest' =>
      obtain ⟨j, z⟩ := d
      simp only [Mem.wfFrom, Bool.and_eq_true, decide_eq_true_eq] at hm hn
      have hk : k = j := by
        by_contra hne
        rcases Nat.lt_or_gt_of_ne hne with hlt | hlt
        · have hk' := h k
          simp only [Mem.read, if_true, if_neg hne] at hk'
          rw [read_below (lo := j + 1) (by omega) hn.2] at hk'
          exact absurd hk' (by simp)
        · have hj' := h j
          simp only [Mem.read, if_true, if_neg (Ne.symm hne)] at hj'
          rw [read_below (lo := k + 1) (by omega) hm.2] at hj'
          exact absurd hj' (by simp)
      subst hk
      have hy : y = z := by have := h k; simpa [Mem.read] using this
      subst hy
      congr 1
      refine ih hm.2 hn.2 (fun a => ?_)
      by_cases ha : a = k
      · subst ha
        rw [read_below (lo := a + 1) (by omega) hm.2, read_below (lo := a + 1) (by omega) hn.2]
      · have := h a
        simpa [Mem.read, ha] using this

theorem ext_of_wf {size : Nat} {m n : Mem} (hm : m.wf size = true) (hn : n.wf size = true)
    (h : ∀ a, m.read a = n.read a) : m = n :=
  ext_of_wfFrom hm hn h

end Sys2Proof.Machine
end

