-- ==== Sys2Proof/Laws/State.lean ====
section
/-!
SUPPORT. One lemma per field per update of the state, each true by its definition, so that no later proof unfolds a
record update.
-/

namespace Sys2Proof.Machine

section setFd
variable (s : State) (k : Nat) (fd : FD)
@[simp] theorem setFd_cfg : (s.setFd k fd).cfg = s.cfg := rfl
@[simp] theorem setFd_fds : (s.setFd k fd).fds = s.fds.set k fd := rfl
@[simp] theorem setFd_we : (s.setFd k fd).we = s.we := rfl
@[simp] theorem setFd_trace : (s.setFd k fd).trace = s.trace := rfl
@[simp] theorem setFd_returns : (s.setFd k fd).returns = s.returns := rfl
@[simp] theorem setFd_faults : (s.setFd k fd).faults = s.faults := rfl
@[simp] theorem setFd_draws : (s.setFd k fd).draws = s.draws := rfl
@[simp] theorem setFd_writer : (s.setFd k fd).writer = s.writer := rfl
@[simp] theorem setFd_input : (s.setFd k fd).input = s.input := rfl
end setFd

section emit
variable (s : State) (e : Event)
@[simp] theorem emit_cfg : (s.emit e).cfg = s.cfg := rfl
@[simp] theorem emit_fds : (s.emit e).fds = s.fds := rfl
@[simp] theorem emit_we : (s.emit e).we = s.we := rfl
@[simp] theorem emit_trace : (s.emit e).trace = s.trace ++ [e] := rfl
@[simp] theorem emit_returns : (s.emit e).returns = s.returns := rfl
@[simp] theorem emit_faults : (s.emit e).faults = s.faults := rfl
@[simp] theorem emit_draws : (s.emit e).draws = s.draws := rfl
@[simp] theorem emit_writer : (s.emit e).writer = s.writer := rfl
@[simp] theorem emit_input : (s.emit e).input = s.input := rfl
end emit

section returnOk
variable (s : State)
@[simp] theorem returnOk_cfg : s.returnOk.cfg = s.cfg := rfl
@[simp] theorem returnOk_fds : s.returnOk.fds = s.fds := rfl
@[simp] theorem returnOk_we : s.returnOk.we = s.we := rfl
@[simp] theorem returnOk_trace : s.returnOk.trace = s.trace := rfl
@[simp] theorem returnOk_returns : s.returnOk.returns = s.returns ++ [Config.serialOk s.draws] := rfl
@[simp] theorem returnOk_faults : s.returnOk.faults = s.faults := rfl
@[simp] theorem returnOk_draws : s.returnOk.draws = s.draws + 1 := rfl
@[simp] theorem returnOk_writer : s.returnOk.writer = s.writer.afterWrite := rfl
@[simp] theorem returnOk_input : s.returnOk.input = s.input := rfl
end returnOk

section record
variable (s : State) (fs : List Fault)
@[simp] theorem record_cfg : (s.record fs).cfg = s.cfg := rfl
@[simp] theorem record_fds : (s.record fs).fds = s.fds := rfl
@[simp] theorem record_we : (s.record fs).we = s.we := rfl
@[simp] theorem record_trace : (s.record fs).trace = s.trace := rfl
@[simp] theorem record_returns : (s.record fs).returns = s.returns := rfl
@[simp] theorem record_faults : (s.record fs).faults = s.faults ++ fs := rfl
@[simp] theorem record_draws : (s.record fs).draws = s.draws := rfl
@[simp] theorem record_writer : (s.record fs).writer = s.writer := rfl
@[simp] theorem record_input : (s.record fs).input = s.input := rfl
end record

section clearCounters
variable (fd : FD)
@[simp] theorem clearCounters_conn : fd.clearCounters.conn = fd.conn := rfl
@[simp] theorem clearCounters_hdrAddr : fd.clearCounters.hdrAddr = fd.hdrAddr := rfl
@[simp] theorem clearCounters_hdrCmd : fd.clearCounters.hdrCmd = fd.hdrCmd := rfl
@[simp] theorem clearCounters_hdrLenHi : fd.clearCounters.hdrLenHi = fd.hdrLenHi := rfl
@[simp] theorem clearCounters_hdrLenLo : fd.clearCounters.hdrLenLo = fd.hdrLenLo := rfl
@[simp] theorem clearCounters_hdrCnt : fd.clearCounters.hdrCnt = 0 := rfl
@[simp] theorem clearCounters_pay : fd.clearCounters.pay = fd.pay := rfl
@[simp] theorem clearCounters_payCnt : fd.clearCounters.payCnt = 0 := rfl
@[simp] theorem clearCounters_seed : fd.clearCounters.seed = fd.seed := rfl
end clearCounters

/-- Reading the decoder just replaced. -/
theorem fdAt_setFd_same {s : State} {k : Nat} {fd old : FD} (h : s.fdAt k = some old) :
    (s.setFd k fd).fdAt k = some fd := by
  simp only [State.fdAt, setFd_fds] at *
  rw [List.getElem?_set_self (List.getElem?_eq_some_iff.mp h).1]

/-- Reading another decoder than the one replaced. -/
theorem fdAt_setFd_other {s : State} {j k : Nat} {fd : FD} (h : j ≠ k) :
    (s.setFd j fd).fdAt k = s.fdAt k := by
  simp only [State.fdAt, setFd_fds, List.getElem?_set_ne h]

@[simp] theorem fdAt_emit (s : State) (e : Event) (k : Nat) : (s.emit e).fdAt k = s.fdAt k := rfl

/-- Replacing a decoder twice keeps the last one. -/
theorem setFd_setFd (s : State) (k : Nat) (a b : FD) : (s.setFd k a).setFd k b = s.setFd k b := by
  simp [State.setFd, List.set_set]

theorem setFd_emit (s : State) (k : Nat) (fd : FD) (e : Event) :
    (s.emit e).setFd k fd = (s.setFd k fd).emit e := rfl

end Sys2Proof.Machine
end

