-- ==== Sys2Proof/Laws/Ops.lean ====
section
/-!
SUPPORT. One lemma per shared operation that says once what it can do, for later proofs to cite.
-/

namespace Sys2Proof.Machine

/-! Sequencing and selection. -/

theorem andThen_eq_next {r : Result} {f : State → Result} {t : State} :
    r.andThen f = .next t ↔ ∃ s, r = .next s ∧ f s = .next t := by
  cases r <;> simp [Result.andThen]

@[simp] theorem andThen_next (s : State) (f : State → Result) : Result.andThen (.next s) f = f s := rfl

theorem onFd_of_some {s : State} {src : Nat} {fd : FD} (h : s.fdAt src = some fd) (f : FD → Result) :
    s.onFd src f = f fd := by
  simp [State.onFd, h]

theorem onFd_of_none {s : State} {src : Nat} (h : s.fdAt src = none) (f : FD → Result) :
    s.onFd src f = .refused .noSuchSource := by
  simp [State.onFd, h]

theorem onFd_eq_next {s : State} {src : Nat} {f : FD → Result} {t : State} :
    s.onFd src f = .next t ↔ ∃ fd, s.fdAt src = some fd ∧ f fd = .next t := by
  unfold State.onFd
  cases s.fdAt src <;> simp

theorem fdAt_lt {s : State} {src : Nat} {fd : FD} (h : s.fdAt src = some fd) : src < s.fds.length :=
  (List.getElem?_eq_some_iff.mp h).1

theorem fdAt_mem {s : State} {src : Nat} {fd : FD} (h : s.fdAt src = some fd) : fd ∈ s.fds :=
  List.mem_of_getElem? h

theorem fdAt_of_lt {s : State} {src : Nat} (h : src < s.fds.length) : ∃ fd, s.fdAt src = some fd :=
  ⟨_, List.getElem?_eq_getElem h⟩

/-! The wire encoder. -/

section wireEncode
variable (px : List Pixel) (s : State)
@[simp] theorem wireEncode_cfg : (wireEncode px s).cfg = s.cfg := rfl
@[simp] theorem wireEncode_fds : (wireEncode px s).fds = s.fds := rfl
@[simp] theorem wireEncode_input : (wireEncode px s).input = s.input := rfl
@[simp] theorem wireEncode_writer : (wireEncode px s).writer = s.writer.afterWrite := rfl
@[simp] theorem wireEncode_draws : (wireEncode px s).draws = s.draws + 1 := rfl
@[simp] theorem wireEncode_returns : (wireEncode px s).returns = s.returns ++ [Config.serialOk s.draws] := rfl
@[simp] theorem wireEncode_faults : (wireEncode px s).faults = s.faults ++ px.flatMap s.we.pixelFaults := rfl
@[simp] theorem wireEncode_lut : (wireEncode px s).we.lut = s.we.lut := rfl
@[simp] theorem wireEncode_seed : (wireEncode px s).we.seed = s.we.seed := rfl
@[simp] theorem wireEncode_outLen : (wireEncode px s).we.outLen = BitVec.ofNat 17 (bufferLen px.length) := rfl
@[simp] theorem wireEncode_out :
    (wireEncode px s).we.out = s.we.out.writeSeq 0 (wireBuffer s.cfg.colorOrder s.we px) := rfl
@[simp] theorem wireEncode_trace : (wireEncode px s).trace =
    s.trace ++ [.serialWrite (wireBuffer s.cfg.colorOrder s.we px) (bufferLen px.length)] := rfl
@[simp] theorem wireEncode_fdAt (k : Nat) : (wireEncode px s).fdAt k = s.fdAt k := rfl
end wireEncode

@[simp] theorem record_length (order : ColorOrder) (q : Pixel) : (record order q).length = 4 := by
  cases order <;> rfl

/-- A buffer has 4 + 4*n bytes (law W-a). -/
theorem wireBuffer_length (order : ColorOrder) (we : WE) (px : List Pixel) :
    (wireBuffer order we px).length = bufferLen px.length := by
  simp only [wireBuffer, preamble, bufferLen, List.length_append, List.length_replicate, List.length_flatMap,
    record_length, Config.recLen]
  simp
  omega

/-- WE_ENCODE completes exactly for an admitted count and a writer that returns. -/
theorem execWeEncode_eq_next {px : List Pixel} {s t : State} :
    execWeEncode px s = .next t ↔
      px.length ≤ Config.pixMax ∧ s.writer.returns = true ∧ t = wireEncode px s := by
  unfold execWeEncode
  split
  · next h => simp; omega
  · next h =>
    split
    · next hw => simp only [Host.Outcome.next.injEq, hw, true_and, eq_comm (a := t), iff_and_self]; omega
    · next hw => simp [hw]

/-- Of an admitted count, WE_ENCODE is its body, or stuck (70_reset_and_hazards.md R290). -/
theorem execWeEncode_eq {px : List Pixel} (s : State) (hn : px.length ≤ Config.pixMax) :
    execWeEncode px s =
      if s.writer.returns then .next (wireEncode px s) else .fault .serialWriterBlocked :=
  if_neg (Nat.not_lt.mpr hn)

@[simp] theorem dutiful_returns : SerialWriter.dutiful.returns = true := rfl
@[simp] theorem dutiful_afterWrite : SerialWriter.dutiful.afterWrite = .dutiful := rfl

/-- The one writer whose next write never returns. -/
theorem returns_eq_false {w : SerialWriter} : w.returns = false ↔ w = .blocksAfter 0 := by
  cases w <;> simp [SerialWriter.returns]

theorem execLutWrite_eq_next {c : BitVec 2} {v val : Byte} {s t : State} :
    execLutWrite c v val s = .next t ↔
      c ≠ 3#2 ∧ t = { s with we := { s.we with lut := s.we.lut.write (lutAddr c v) val } } := by
  unfold execLutWrite
  split
  · next h => simp [h]
  · next h => simp [h, eq_comm]

/-! Handlers: they change the wire encoder, the traces and the draws, and nothing of a decoder. -/

theorem runWeOp_frame {op : WeOp} {s t : State} (h : runWeOp op s = .next t) :
    t.cfg = s.cfg ∧ t.fds = s.fds ∧ t.input = s.input := by
  cases op with
  | encode px => obtain ⟨-, -, rfl⟩ := execWeEncode_eq_next.mp h; simp
  | lutWrite c v val => obtain ⟨-, rfl⟩ := execLutWrite_eq_next.mp h; simp
  | hang => exact absurd h (by simp [runWeOp])

theorem runWeOps_frame {ops : List WeOp} {s t : State} (h : runWeOps ops s = .next t) :
    t.cfg = s.cfg ∧ t.fds = s.fds ∧ t.input = s.input := by
  induction ops generalizing s with
  | nil => simp only [runWeOps, Host.Outcome.next.injEq] at h; subst h; simp
  | cons op rest ih =>
    obtain ⟨u, h1, h2⟩ := andThen_eq_next.mp h
    have a := runWeOp_frame h1
    have b := ih h2
    exact ⟨b.1.trans a.1, b.2.1.trans a.2.1, b.2.2.trans a.2.2⟩

@[simp] theorem andThen_fault (e : Fault) (f : State → Result) : Result.andThen (.fault e) f = .fault e := rfl

theorem runWeOps_cons (op : WeOp) (rest : List WeOp) (s : State) :
    runWeOps (op :: rest) s = (runWeOp op s).andThen (runWeOps rest) := rfl

/-- The reference handler encodes an accepted frame and ignores any other (44_dataflow.md R240, R242). -/
theorem runHandler_reference (cfg : Config) (addr : Byte) (n : Nat) (px : List Pixel) (s : State) :
    runHandler (referenceHandler cfg) addr n px s =
      if cfg.accepts addr then execWeEncode px s else .next s := by
  unfold runHandler referenceHandler
  split
  · simp only [runWeOps, runWeOp]
    cases execWeEncode px s <;> rfl
  · rfl

/-! Frame commands and completion. -/

@[simp] theorem pixels_length (fd : FD) (n : Nat) : (fd.pixels n).length = n := by
  simp [FD.pixels]

theorem pixelCount_le (len : BitVec 16) : pixelCount len ≤ Config.pixMax := by
  have := len.isLt
  simp only [pixelCount, Config.pixMax]
  omega

theorem setPixelsWith_reference {cfg : Config} {src : Nat} {addr : Byte} {len : BitVec 16} {s : State} {fd : FD}
    (h : s.fdAt src = some fd) :
    setPixelsWith (referenceHandler cfg) src addr len s =
      let s1 := s.emit (.pixels addr (pixelCount len) (fd.pixels (pixelCount len)))
      if cfg.accepts addr then execWeEncode (fd.pixels (pixelCount len)) s1 else .next s1 := by
  rw [setPixelsWith, onFd_of_some h]
  exact runHandler_reference ..

/-- A command-1 frame of an accepted address whose write never returns leaves the block stuck (R290). -/
theorem completeFrame_blocked {cfg : Config} {src : Nat} {s : State} {fd : FD} (h : s.fdAt src = some fd)
    (hc : fd.hdrCmd = Config.cmdSetPixels) (ha : cfg.accepts fd.hdrAddr = true) (hw : s.writer.returns = false) :
    completeFrame (referenceHandler cfg) src s = .fault .serialWriterBlocked := by
  have h1 : (s.emit (.frameDone fd.hdrAddr fd.hdrCmd fd.payLen)).fdAt src = some fd := h
  rw [completeFrame, onFd_of_some h, runCommand, if_pos hc, setPixelsWith_reference h1]
  dsimp only
  rw [if_pos ha, execWeEncode_eq _ (by simpa using pixelCount_le fd.payLen)]
  simp [hw, Result.andThen]

/-- Frame completion in the reference composition ends in a next state, if the write it makes, if any, returns
(60_exceptions.md R259, 70_reset_and_hazards.md R290). -/
theorem completeFrame_reference {cfg : Config} {src : Nat} {s : State} {fd : FD} (h : s.fdAt src = some fd)
    (hw : fd.hdrCmd = Config.cmdSetPixels → cfg.accepts fd.hdrAddr = true → s.writer.returns = true) :
    completeFrame (referenceHandler cfg) src s =
      let s1 := s.emit (.frameDone fd.hdrAddr fd.hdrCmd fd.payLen)
      let n := pixelCount fd.payLen
      let s2 := s1.emit (.pixels fd.hdrAddr n (fd.pixels n))
      .next ((if fd.hdrCmd = Config.cmdSetPixels
        then (if cfg.accepts fd.hdrAddr then wireEncode (fd.pixels n) s2 else s2)
        else s1).setFd src fd.clearCounters) := by
  have h1 : (s.emit (.frameDone fd.hdrAddr fd.hdrCmd fd.payLen)).fdAt src = some fd := h
  rw [completeFrame, onFd_of_some h, runCommand]
  split
  · next hc =>
    rw [setPixelsWith_reference h1]
    dsimp only
    split
    · next ha =>
      rw [execWeEncode_eq _ (by simpa using pixelCount_le fd.payLen),
        if_pos (by simpa using hw hc ha), andThen_next, State.clearFd, onFd_of_some (fd := fd) (by simpa using h)]
    · rw [andThen_next, State.clearFd, onFd_of_some (fd := fd) (by simpa using h)]
  · rw [execCmdOther, onFd_of_some h1, andThen_next, State.clearFd, onFd_of_some h1]

/-! RESET. -/

@[simp] theorem resetAllFds_length (fds : List FD) (seed : Nat) : (resetAllFds fds seed).length = fds.length := by
  induction fds generalizing seed with
  | nil => rfl
  | cons _ _ ih => simp [resetAllFds, ih]

theorem resetAllFds_getElem? (fds : List FD) (seed k : Nat) :
    (resetAllFds fds seed)[k]? = (fds[k]?).map (fun _ => FD.afterReset (seed + k)) := by
  induction fds generalizing seed k with
  | nil => simp [resetAllFds]
  | cons _ _ ih =>
    cases k with
    | zero => simp [resetAllFds]
    | succ k => simp [resetAllFds, ih, Nat.add_assoc, Nat.add_comm 1 k]

theorem mem_resetAllFds {fds : List FD} {seed : Nat} {fd : FD} (h : fd ∈ resetAllFds fds seed) :
    ∃ n, fd = FD.afterReset n := by
  induction fds generalizing seed with
  | nil => simp [resetAllFds] at h
  | cons _ _ ih =>
    rcases List.mem_cons.mp h with h | h
    · exact ⟨_, h⟩
    · exact ih h

end Sys2Proof.Machine
end

