-- ==== Sys2Proof/Laws/FrameDecoder.lean ====
section
/-!
SUPPORT. What FD_BYTE can do, said once: which byte completes a frame, the state a completion ends in, and the outcome of
every FD_BYTE.
-/

namespace Sys2Proof.Machine

/-- The state in which a frame's command and its handler end, before the counters are cleared. -/
def commandState (cfg : Config) (fd : FD) (s : State) : State :=
  let s1 := s.emit (.frameDone fd.hdrAddr fd.hdrCmd fd.payLen)
  let s2 := s1.emit (.pixels fd.hdrAddr (pixelCount fd.payLen) (fd.pixels (pixelCount fd.payLen)))
  if fd.hdrCmd = Config.cmdSetPixels then
    (if cfg.accepts fd.hdrAddr then wireEncode (fd.pixels (pixelCount fd.payLen)) s2 else s2)
  else s1

/-- The state a completion ends in. -/
def completedState (cfg : Config) (src : Nat) (fd : FD) (s : State) : State :=
  (commandState cfg fd s).setFd src fd.clearCounters

theorem completeFrame_eq {cfg : Config} {src : Nat} {s : State} {fd : FD} (h : s.fdAt src = some fd)
    (hw : fd.hdrCmd = Config.cmdSetPixels → cfg.accepts fd.hdrAddr = true → s.writer.returns = true) :
    completeFrame (referenceHandler cfg) src s = .next (completedState cfg src fd s) :=
  completeFrame_reference h hw

section commandState
variable (cfg : Config) (fd : FD) (s : State)

@[simp] theorem commandState_cfg : (commandState cfg fd s).cfg = s.cfg := by
  unfold commandState; dsimp only; split
  · split <;> simp
  · simp

@[simp] theorem commandState_fds : (commandState cfg fd s).fds = s.fds := by
  unfold commandState; dsimp only; split
  · split <;> simp
  · simp

@[simp] theorem commandState_input : (commandState cfg fd s).input = s.input := by
  unfold commandState; dsimp only; split
  · split <;> simp
  · simp

@[simp] theorem commandState_lut : (commandState cfg fd s).we.lut = s.we.lut := by
  unfold commandState; dsimp only; split
  · split <;> simp
  · simp

/-- Without an accepted command-1 frame a completion leaves the encoder, the results, the faults, the draws and the writer
alone. -/
theorem commandState_quiet (h : ¬ (fd.hdrCmd = Config.cmdSetPixels ∧ cfg.accepts fd.hdrAddr = true)) :
    (commandState cfg fd s).we = s.we ∧ (commandState cfg fd s).returns = s.returns ∧
      (commandState cfg fd s).faults = s.faults ∧ (commandState cfg fd s).draws = s.draws ∧
      (commandState cfg fd s).writer = s.writer := by
  unfold commandState; dsimp only; split
  · next h1 => rw [if_neg (fun h2 => h ⟨h1, h2⟩)]; simp
  · simp

/-- The events of a completion. -/
theorem commandState_trace :
    (commandState cfg fd s).trace = s.trace ++ .frameDone fd.hdrAddr fd.hdrCmd fd.payLen ::
      (if fd.hdrCmd = Config.cmdSetPixels then
        .pixels fd.hdrAddr (pixelCount fd.payLen) (fd.pixels (pixelCount fd.payLen)) ::
          (if cfg.accepts fd.hdrAddr then
            [.serialWrite (wireBuffer s.cfg.colorOrder s.we (fd.pixels (pixelCount fd.payLen)))
              (bufferLen (pixelCount fd.payLen))] else [])
      else []) := by
  unfold commandState; dsimp only; split
  · split <;> simp
  · simp

end commandState

/-- The decoder after the store of an FD_BYTE. -/
def FD.stored (fd : FD) (b : Byte) : FD :=
  if fd.hdrCnt.toNat < 4 then fd.storeHeader b else fd.storePayload b

theorem cat_toNat (hi lo : Byte) : (hi ++ lo).toNat = hi.toNat * 256 + lo.toNat := by
  rw [BitVec.toNat_append, ← Nat.shiftLeft_add_eq_or_of_lt lo.isLt, Nat.shiftLeft_eq]

theorem payLen_toNat (fd : FD) : fd.payLen.toNat = fd.hdrLenHi.toNat * 256 + fd.hdrLenLo.toNat :=
  cat_toNat _ _

theorem lutAddr_eq (c : BitVec 2) (v : Byte) : lutAddr c v = c.toNat * 256 + v.toNat := by
  rw [lutAddr, BitVec.toNat_append, ← Nat.shiftLeft_add_eq_or_of_lt v.isLt, Nat.shiftLeft_eq]

/-- The header path completes a frame exactly on the fourth byte of a zero length (40_frame_decoder.md R131, R133). -/
theorem header_completes_iff {fd : FD} {b : Byte} (h : fd.hdrCnt.toNat < 4) :
    ((fd.storeHeader b).hdrCnt = 4 ∧ (fd.storeHeader b).payLen = 0) ↔ Completes fd b := by
  have h3 : (fd.storeHeader b).hdrCnt = 4 ↔ fd.hdrCnt = 3 := by
    simp only [FD.storeHeader]
    bv_omega
  rw [h3]
  constructor
  · rintro ⟨hc, hl⟩
    left
    have hl' := congrArg BitVec.toNat hl
    rw [payLen_toNat] at hl'
    simp only [FD.storeHeader, hc, FD.setHdr] at hl'
    refine ⟨hc, ?_, ?_⟩
    · apply BitVec.eq_of_toNat_eq
      change _ = 0
      have : (fd.hdrLenHi.toNat * 256 + b.toNat) = 0 := hl'
      omega
    · apply BitVec.eq_of_toNat_eq
      change _ = 0
      have : (fd.hdrLenHi.toNat * 256 + b.toNat) = 0 := hl'
      omega
  · rintro (⟨hc, hhi, hb⟩ | ⟨h4, -⟩)
    · refine ⟨hc, ?_⟩
      apply BitVec.eq_of_toNat_eq
      rw [payLen_toNat]
      simp only [FD.storeHeader, hc, FD.setHdr]
      change fd.hdrLenHi.toNat * 256 + b.toNat = 0
      simp [hhi, hb]
    · omega

/-- The byte that completes a frame is neither its address nor its command. -/
theorem stored_fields {fd : FD} {b : Byte} (h : Completes fd b) :
    (fd.stored b).hdrAddr = fd.hdrAddr ∧ (fd.stored b).hdrCmd = fd.hdrCmd := by
  unfold FD.stored
  rcases h with ⟨h3, -, -⟩ | ⟨h4, -⟩
  · rw [if_pos (by simp [h3])]; simp [FD.storeHeader, FD.setHdr, h3]
  · rw [if_neg (by omega)]; exact ⟨rfl, rfl⟩

/-- FD_BYTE on a connected decoder stores the byte, and completes the frame if it was the last, with any handler
(40_frame_decoder.md R130 to R134, 44_dataflow.md R243). -/
theorem fdByteWith_split {s : State} {src : Nat} {fd : FD} {b : Byte} (hdl : Handler) (h : s.fdAt src = some fd)
    (hc : fd.conn = true) :
    (Completes fd b → fdByteWith hdl src b s = completeFrame hdl src (s.setFd src (fd.stored b))) ∧
    (¬ Completes fd b → fdByteWith hdl src b s = .next (s.setFd src (fd.stored b))) := by
  rw [fdByteWith, onFd_of_some h, if_neg (by simp [hc])]
  by_cases h4 : fd.hdrCnt.toNat < 4
  · rw [if_pos h4, headerByte, FD.stored, if_pos h4]
    constructor
    · intro hcomp
      rw [if_pos ((header_completes_iff h4).mpr hcomp)]
    · intro hcomp
      rw [if_neg (fun hx => hcomp ((header_completes_iff h4).mp hx))]
  · rw [if_neg h4, payloadByte, FD.stored, if_neg h4]
    have hiff : fd.payCnt.toNat + 1 = fd.payLen.toNat ↔ Completes fd b := by
      constructor
      · intro hx; right; exact ⟨by omega, hx⟩
      · rintro (⟨hx, -, -⟩ | ⟨-, hx⟩)
        · simp [hx] at h4
        · exact hx
    constructor
    · intro hcomp
      rw [if_pos (hiff.mpr hcomp)]
    · intro hcomp
      rw [if_neg (fun hx => hcomp (hiff.mp hx))]

/-- The outcome of every FD_BYTE on a connected decoder: the completed state if the write that the completion makes, if
any, returns; stuck if it does not (70_reset_and_hazards.md R290); and the stored byte alone without a completion. -/
theorem execFdByte_eq {s : State} {src : Nat} {fd : FD} {b : Byte} (h : s.fdAt src = some fd)
    (hc : fd.conn = true) :
    (Completes fd b →
      (fd.hdrCmd = Config.cmdSetPixels → s.cfg.accepts fd.hdrAddr = true → s.writer.returns = true) →
      execFdByte src b s = .next (completedState s.cfg src (fd.stored b) (s.setFd src (fd.stored b)))) ∧
    (Completes fd b → fd.hdrCmd = Config.cmdSetPixels → s.cfg.accepts fd.hdrAddr = true →
      s.writer.returns = false → execFdByte src b s = .fault .serialWriterBlocked) ∧
    (¬ Completes fd b → execFdByte src b s = .next (s.setFd src (fd.stored b))) := by
  have hs := fdAt_setFd_same (fd := fd.stored b) h
  obtain ⟨hyes, hno⟩ := fdByteWith_split (b := b) (referenceHandler s.cfg) h hc
  refine ⟨fun hcomp hw => ?_, fun hcomp h1 ha hw => ?_, hno⟩
  · obtain ⟨e1, e2⟩ := stored_fields hcomp
    rw [execFdByte, hyes hcomp, completeFrame_eq hs (by rwa [e1, e2])]
  · obtain ⟨e1, e2⟩ := stored_fields hcomp
    rw [execFdByte, hyes hcomp, completeFrame_blocked hs (e2.trans h1) (by rwa [e1]) hw]

/-- FD_BYTE answers a next state only on a decoder that exists and is connected. -/
theorem execFdByte_next {s t : State} {src : Nat} {b : Byte} (h : execFdByte src b s = .next t) :
    ∃ fd, s.fdAt src = some fd ∧ fd.conn = true ∧
      ((Completes fd b ∧ t = completedState s.cfg src (fd.stored b) (s.setFd src (fd.stored b))) ∨
        (¬ Completes fd b ∧ t = s.setFd src (fd.stored b))) := by
  obtain ⟨fd, hfd, hf⟩ := onFd_eq_next.mp h
  have hc : fd.conn = true := by
    by_contra hn
    rw [if_pos (by simpa using hn)] at hf
    exact absurd hf (by simp)
  refine ⟨fd, hfd, hc, ?_⟩
  obtain ⟨hyes, hstuck, hno⟩ := execFdByte_eq (b := b) hfd hc
  by_cases hcomp : Completes fd b
  · have hw : fd.hdrCmd = Config.cmdSetPixels → s.cfg.accepts fd.hdrAddr = true → s.writer.returns = true := by
      intro h1 ha
      by_contra hw
      rw [hstuck hcomp h1 ha (by simpa using hw)] at h
      exact absurd h (by simp)
    rw [hyes hcomp hw] at h
    exact .inl ⟨hcomp, (Host.Outcome.next.inj h).symm⟩
  · rw [hno hcomp] at h
    exact .inr ⟨hcomp, (Host.Outcome.next.inj h).symm⟩

end Sys2Proof.Machine
end

