-- ==== Sys2Proof/Laws/PerInstr.lean ====
section
/-!
SUPPORT. One statement per instruction: the word encoded for it has the bits its format gives (30_encoding.md R101, R107).
-/

namespace Sys2Proof.Laws.WordLength

/-- The number of bits of an encoded row. -/
def encodedLength : Encoded → Nat
  | .op w => w.bits.length
  | .header _ _ => 32

/-- The number of bits of a row's format: 4 (OP0), 12 (OP1), 22 (OP3), 19 and 24 for each pixel (OPV), 32 (HDR). -/
def formatLength : Instr → Nat
  | .fdTimeout _ => 4
  | .fdOpen _ => 4
  | .fdByte _ _ => 12
  | .fdClose _ => 4
  | .lutWrite _ _ _ => 22
  | .weEncode px => 19 + 24 * px.length
  | .reset _ => 4
  | .setPixels _ _ _ => 32
  | .cmdOther _ _ _ _ => 32

/-- The encoded word has the length of its format. -/
def Statement (i : Instr) : Prop :=
  encodedLength (encode i) = formatLength i

theorem fdTimeout (src : Nat) : Statement (.fdTimeout src) := rfl

theorem fdOpen (src : Nat) : Statement (.fdOpen src) := rfl

theorem fdByte (src : Nat) (b : Byte) : Statement (.fdByte src b) := by
  simp [Statement, encode, encodedLength, formatLength]

theorem fdClose (src : Nat) : Statement (.fdClose src) := rfl

theorem lutWrite (c : BitVec 2) (v val : Byte) : Statement (.lutWrite c v val) := by
  simp [Statement, encode, encodedLength, formatLength]

theorem weEncode (px : List Pixel) : Statement (.weEncode px) := by
  simp [Statement, encode, encodedLength, formatLength, List.length_flatMap]
  omega

theorem reset (src : Option Nat) : Statement (.reset src) := rfl

theorem setPixels (src : Nat) (addr : Byte) (len : BitVec 16) : Statement (.setPixels src addr len) := rfl

theorem cmdOther (src : Nat) (addr cmd : Byte) (len : BitVec 16) : Statement (.cmdOther src addr cmd len) := rfl

end Sys2Proof.Laws.WordLength
end

