-- ==== Sys2Proof/Laws/WireEncoder.lean ====
section
/-!
SUPPORT. What an encode does, in the words of the statements: the buffer it sends, the entries it records and its whole
effect.
-/

namespace Sys2Proof.Machine

/-- The control byte by bits is the control byte by arithmetic (30_encoding.md R97, 43_wire_encoder.md R213). -/
theorem controlByte_eq (q : Pixel) : controlByte q = specControl q.r q.g q.b := by
  have bits : ∀ x y z : BitVec 2, Config.ctrlTop ++ ~~~ (x ++ y ++ z) =
      BitVec.ofNat 8 (0xFF - 16 * x.toNat - 4 * y.toNat - z.toNat) := by decide
  have top : ∀ x : Byte, (x.extractLsb' 6 2).toNat = x.toNat / 64 := by
    intro x
    have := x.isLt
    rw [BitVec.extractLsb'_toNat, Nat.shiftRight_eq_div_pow]
    omega
  rw [controlByte, packedTop, bits, top, top, top, specControl]

/-- The byte of a table entry, written or not, is a function that agrees with every written entry. -/
theorem gammaApply_agrees (we : WE) : we.Agrees we.gammaApply := by
  intro c v b h
  simp [WE.gammaApply, lutAddr_eq, h]

/-- The buffer of a pixel sequence, as 30_encoding.md R96 to R98 lay it out. -/
theorem wireBuffer_eq (order : ColorOrder) (we : WE) (px : List Pixel) :
    wireBuffer order we px = specBuffer order we.gammaApply px := by
  simp only [wireBuffer, specBuffer]
  congr 2
  funext p
  cases order <;> simp [record, colourBytes, specRecord, controlByte_eq, WE.correct, chanR, chanG, chanB]

theorem mem_lookupFault {we : WE} {c : BitVec 2} {x : Byte} {f : Fault} :
    f ∈ we.lookupFault c x ↔ f = .unwrittenLutEntry c x ∧ we.lut.read (c.toNat * 256 + x.toNat) = none := by
  rw [WE.lookupFault, lutAddr_eq]
  cases we.lut.read (c.toNat * 256 + x.toNat) <;> simp

/-- The faults an encode records are those of its unwritten lookups (42_gamma_lut.md R198). -/
theorem unwrittenLookups_pixelFaults (we : WE) (px : List Pixel) :
    UnwrittenLookups we px (px.flatMap we.pixelFaults) := by
  intro f
  simp only [List.mem_flatMap, WE.pixelFaults, List.mem_append, mem_lookupFault, chanR, chanG, chanB]
  constructor
  · rintro ⟨p, hp, (⟨rfl, h⟩ | ⟨rfl, h⟩) | ⟨rfl, h⟩⟩
    · exact ⟨_, _, rfl, h, p, hp, .inl ⟨rfl, rfl⟩⟩
    · exact ⟨_, _, rfl, h, p, hp, .inr (.inl ⟨rfl, rfl⟩)⟩
    · exact ⟨_, _, rfl, h, p, hp, .inr (.inr ⟨rfl, rfl⟩)⟩
  · rintro ⟨c, v, rfl, h, p, hp, ⟨rfl, rfl⟩ | ⟨rfl, rfl⟩ | ⟨rfl, rfl⟩⟩
    · exact ⟨p, hp, .inl (.inl ⟨rfl, h⟩)⟩
    · exact ⟨p, hp, .inl (.inr ⟨rfl, h⟩)⟩
    · exact ⟨p, hp, .inr ⟨rfl, h⟩⟩

/-- The whole effect of an encode but its trace. -/
theorem encodeEffect_wireEncode (px : List Pixel) (s : State) :
    EncodeEffect s.we.gammaApply px s (wireEncode px s) where
  outLen := rfl
  out k := by
    have hlen : (wireBuffer s.cfg.colorOrder s.we px).length = 4 + 4 * px.length := wireBuffer_length ..
    rw [wireEncode_out, read_writeSeq, hlen, wireBuffer_eq]
    simp
  lut := rfl
  seed := rfl
  returns := ⟨_, rfl⟩
  faults := ⟨_, rfl, unwrittenLookups_pixelFaults s.we px⟩
  draws := rfl
  writer := rfl
  cfg := rfl
  input := rfl

/-- An admitted operation of a handler completes, or is a write that never returns; a dutiful writer stays so. -/
theorem runWeOp_admitted {op : WeOp} {s : State} (h : op.Admitted) :
    (∃ t, runWeOp op s = .next t ∧ (s.writer = .dutiful → t.writer = .dutiful)) ∨
      (runWeOp op s = .fault .serialWriterBlocked ∧ s.writer ≠ .dutiful) := by
  cases op with
  | encode px =>
    rw [runWeOp, execWeEncode_eq s h]
    split
    · exact .inl ⟨_, rfl, fun hd => by simp [hd]⟩
    · next hw => exact .inr ⟨rfl, fun hd => hw (by simp [hd])⟩
  | lutWrite c v val => exact .inl ⟨_, if_neg h, id⟩
  | hang => exact absurd h id

/-- A handler that comes to hang leaves the block stuck, on the hanging itself if every write returns. -/
theorem runWeOps_hang {pre post : List WeOp} {s : State} (h : ∀ op ∈ pre, op.Admitted) :
    ∃ f, runWeOps (pre ++ .hang :: post) s = .fault f ∧ (s.writer = .dutiful → f = .handlerBlocked) := by
  induction pre generalizing s with
  | nil => exact ⟨_, rfl, fun _ => rfl⟩
  | cons op rest ih =>
    rw [List.cons_append, runWeOps_cons]
    rcases runWeOp_admitted (s := s) (h op (by simp)) with ⟨t, ht, hd⟩ | ⟨hf, hn⟩
    · obtain ⟨f, hf, hb⟩ := ih (s := t) (fun op hop => h op (by simp [hop]))
      exact ⟨f, by rw [ht, andThen_next, hf], hb ∘ hd⟩
    · exact ⟨_, by rw [hf, andThen_fault], fun hd => absurd hd hn⟩

end Sys2Proof.Machine
end

