-- ==== Sys2Proof/Tests/Slice0.lean ====
section
/-!
SUPPORT. Small tests: ill-formed terms, words written out from the encoding tables, one step of each operation against
95_test_vectors.md, and a witness for the hypotheses of each statement that has some.
-/

namespace Sys2Proof.Tests

open Sys2Proof Sys2Proof.Machine

/-! Helpers: small states, and a look at an outcome. -/

/-- The fault of an outcome, if it is one. -/
def faultIn : Result → Option Fault
  | .next _ => none
  | .fault f => some f
  | .refused _ => none

/-- The next state of an outcome, if it is one. -/
def nextOf : Result → Option State
  | .next s => some s
  | .fault _ => none
  | .refused _ => none

/-- The refusal of an outcome, if it is one. -/
def refusalIn : Result → Option Refusal
  | .next _ => none
  | .fault _ => none
  | .refused r => some r

/-- `(conn, hdr_cnt, pay_cnt)` of source 0 after an outcome. -/
def fdStatus (r : Result) : Option (Bool × Nat × Nat) :=
  (nextOf r).bind fun s => (s.fdAt 0).map fun fd => (fd.conn, fd.hdrCnt.toNat, fd.payCnt.toNat)

/-- The output trace after an outcome. -/
def traceOf (r : Result) : Option (List Event) :=
  (nextOf r).map (·.trace)

/-- A connected decoder with header registers `a c hi lo` and counters. -/
def fdWith (a c hi lo : Byte) (hdrCnt : BitVec 3) (pay : Mem) (payCnt : BitVec 16) : FD :=
  ⟨true, a, c, hi, lo, hdrCnt, pay, payCnt, 0⟩

/-- A state with these decoders, and nothing else changed from reset. -/
def withFds (fds : List FD) : State :=
  { State.reset with fds := fds }

/-- A state with these table cells and this colour order. -/
def withLut (order : ColorOrder) (lut : Mem) : State :=
  { State.reset with cfg := ⟨order, BitVec.allOnes 256, 255⟩, we := { State.reset.we with lut := lut } }

/-- Just connected. -/
def fdOpened : FD := fdWith 0 0 0 0 0 [] 0

/-- Three header bytes `01 01 00` received (95_test_vectors.md X1). -/
def fdThree : FD := fdWith 1 1 0 0 3 [] 0

/-- Five of six payload bytes received (95_test_vectors.md X1). -/
def fdFive : FD :=
  fdWith 1 1 0 6 4 [(0, 0x0A), (1, 0x14), (2, 0x1E), (3, 0x28), (4, 0x32)] 5

/-- The same state with another serial writer. -/
def withWriter (w : SerialWriter) (s : State) : State :=
  { s with writer := w }

/-- Identity tables, all 768 entries. -/
def identityLut : Mem :=
  (List.range' 0 768).map (fun a => (a, BitVec.ofNat 8 a))

/-- Identity tables with one connected decoder. -/
def loaded (fd : FD) : State :=
  { withLut .rgb identityLut with fds := [fd] }

/-- A sequence of `n` equal pixels. -/
def many (n : Nat) : List Pixel :=
  List.replicate n ⟨1, 2, 3⟩

theorem many_length (n : Nat) : (many n).length = n :=
  List.length_replicate

/-! Ill-formed terms are refused. -/

theorem test_wf_refuses_table_three : (Instr.lutWrite 3#2 0 0).wf = false := by decide

theorem test_wf_refuses_command_one_as_other : (Instr.cmdOther 0 5 1 0).wf = false := by decide

theorem test_wf_refuses_too_many_pixels : (Instr.weEncode (many 21846)).wf = false := by
  simp [Instr.wf, Config.pixMax, many_length]

theorem test_wf_admits_most_pixels : (Instr.weEncode (many 21845)).wf = true := by
  simp [Instr.wf, Config.pixMax, many_length]

/-! Words written out from 30_encoding.md R101 and R91. -/

theorem test_decode_timeout : decode ⟨none, [false, false, false, false]⟩ = .ok (.fdTimeout 0) := rfl

theorem test_decode_open : decode ⟨some 2, [false, false, false, true]⟩ = .ok (.fdOpen 2) := rfl

/-- `0010 bbbbbbbb` with b = 0x81. -/
theorem test_decode_byte : decode ⟨none,
    [false, false, true, false, true, false, false, false, false, false, false, true]⟩ = .ok (.fdByte 0 0x81#8) := rfl

theorem test_decode_close : decode ⟨none, [false, false, true, true]⟩ = .ok (.fdClose 0) := rfl

/-- `0100 cc vvvvvvvv dddddddd` with c = 2, v = 0x40, val = 0x0C. -/
theorem test_decode_lutWrite : decode ⟨none,
    [false, true, false, false, true, false, false, true, false, false, false, false, false, false,
     false, false, false, false, true, true, false, false]⟩ = .ok (.lutWrite 2#2 0x40#8 0x0C#8) := rfl

/-- `0101 nnnnnnnnnnnnnnn` with n = 1 and the pixel FF 80 40. -/
theorem test_decode_weEncode : decode ⟨none,
    [false, true, false, true, false, false, false, false, false, false, false, false, false, false, false, false,
     false, false, true,
     true, true, true, true, true, true, true, true, true, false, false, false, false, false, false, false,
     false, true, false, false, false, false, false, false]⟩ = .ok (.weEncode [⟨0xFF#8, 0x80#8, 0x40#8⟩]) := rfl

theorem test_decode_reset : decode ⟨some 1, [true, true, true, true]⟩ = .ok (.reset (some 1)) := rfl

/-- 95_test_vectors.md X9: `H = 0x01010006`. -/
theorem test_decode_setPixels : decodeHeader 0 0x01010006#32 = .setPixels 0 1#8 6#16 := by decide

/-- 95_test_vectors.md T10: `09 FF 00 02`. -/
theorem test_decode_cmdOther : decodeHeader 0 0x09FF0002#32 = .cmdOther 0 9#8 255#8 2#16 := by decide

theorem test_decode_reserved : decode ⟨none, [true, true, true, false]⟩ = .error (.reservedTag 14#4) := rfl

theorem test_decode_truncated : decode ⟨none, [false, false, true, false, true]⟩ = .error .truncated := rfl

theorem test_decode_trailing : decode ⟨none, [false, false, false, true, false]⟩ = .error .trailing := rfl

theorem test_table_word_byte : decodeTableWord 16 0x2AB = some (.fdByte 0 0xAB#8) := by decide

theorem test_table_word_lut : decodeTableWord 24 0x118038 = some (.lutWrite 1#2 0x80#8 0x38#8) := by decide

theorem test_table_word_encode : decodeTableWord 24 0x28000 = some (.weEncode []) := by decide

theorem test_table_word_reserved : decodeTableWord 8 0x6 = none := by decide

/-! FD_BYTE (95_test_vectors.md T1 to T16, X1). -/

/-- T1. -/
theorem test_byte_first : fdStatus (exec (.fdByte 0 0x2A) (withFds [fdOpened])) = some (true, 1, 0) := by decide

/-- The example of 40_frame_decoder.md R130: the length opens the payload. -/
theorem test_byte_header_done : fdStatus (exec (.fdByte 0 6) (withFds [fdThree])) = some (true, 4, 0) := by decide

/-- T5: a length of 0 completes at the fourth header byte. -/
theorem test_byte_zero_length : traceOf (exec (.fdByte 0 0) (withFds [fdWith 5 1 0 9 3 [] 0])) =
    some [.frameDone 5 1 0, .pixels 5 0 [], .serialWrite [0, 0, 0, 0] 4] := by decide

/-- X1, P1: the last byte `3C` under identity tables. -/
theorem test_byte_last : traceOf (exec (.fdByte 0 0x3C) { withLut .rgb
      [(10, 10), (40, 40), (276, 20), (306, 50), (542, 30), (572, 60)] with fds := [fdFive] }) =
    some [.frameDone 1 1 6, .pixels 1 2 [⟨10, 20, 30⟩, ⟨40, 50, 60⟩],
      .serialWrite [0, 0, 0, 0, 0xFF, 0x0A, 0x14, 0x1E, 0xFF, 0x28, 0x32, 0x3C] 12] := by decide

/-- T10: another command: `FrameDone` only. -/
theorem test_byte_other_command : traceOf (exec (.fdByte 0 0xBB) (withFds [fdWith 9 255 0 2 4 [(0, 0xAA)] 1])) =
    some [.frameDone 9 255 2] := by decide

/-- T16. -/
theorem test_byte_refused : refusalIn (exec (.fdByte 0 0) State.reset) = some .notConnected := by decide

/-- P5: instance 1 completes its frame and instance 0 keeps its partial one. -/
theorem test_byte_other_source : (nextOf (exec (.fdByte 1 0) (withFds [fdThree, fdWith 2 2 0 3 4 [] 2]))).map
    (fun s => s.fds[0]?) = some (some fdThree) := by decide

/-! Frame commands. -/

/-- T8: the remainder is dropped. -/
theorem test_setPixels_remainder : ((nextOf (exec (.setPixels 0 0 7) (withFds
      [fdWith 0 1 0 7 4 [(0, 1), (1, 2), (2, 3), (3, 4), (4, 5), (5, 6), (6, 7)] 7]))).bind (·.trace.head?)) =
    some (.pixels 0 2 [⟨1, 2, 3⟩, ⟨4, 5, 6⟩]) := by decide

/-- 44_dataflow.md R242: an address that is not accepted is not encoded. -/
theorem test_setPixels_filtered : traceOf (exec (.setPixels 0 3 0)
      { withFds [fdOpened] with cfg := ⟨.rgb, 0, 255⟩ }) = some [.pixels 3 0 []] := by decide

theorem test_cmdOther_nothing : nextOf (exec (.cmdOther 0 9 255 2) State.reset) = some State.reset := by decide

/-! Link events (T18 to T23). -/

theorem test_open : fdStatus (exec (.fdOpen 0) State.reset) = some (true, 0, 0) := by decide

theorem test_open_refused : refusalIn (exec (.fdOpen 0) (withFds [fdOpened])) = some .alreadyConnected := by decide

theorem test_close_mid_payload : fdStatus (exec (.fdClose 0) (withFds [fdFive])) = some (false, 0, 0) := by decide

theorem test_close_disconnected : traceOf (exec (.fdClose 0) State.reset) = some [.closed] := by decide

theorem test_timeout : nextOf (exec (.fdTimeout 0) (withFds [fdFive])) = some (withFds [fdFive]) := by decide

theorem test_no_such_source : refusalIn (exec (.fdTimeout 1) State.reset) = some .noSuchSource := by decide

/-! Tables (T32 to T35). -/

/-- T32. -/
theorem test_lutWrite : (nextOf (exec (.lutWrite 1 0x80 0x38) State.reset)).map (·.we.lut) =
    some [(384, 56)] := by decide

/-- T33: the last write wins. -/
theorem test_lutWrite_again : (nextOf (exec (.lutWrite 1 0x80 0x39) (withLut .rgb [(384, 56)]))).map (·.we.lut) =
    some [(384, 57)] := by decide

/-- T34. -/
theorem test_lutWrite_refused : refusalIn (exec (.lutWrite 3 0 0) State.reset) = some .noSuchTable := by decide

/-- T31, the spot values. -/
theorem test_gamma22_spots : [10, 20, 30, 40, 50, 60, 64, 128, 200, 220, 240, 255].map (fun v => (gamma22 v).toNat) =
    [0, 1, 2, 4, 7, 11, 12, 56, 149, 184, 223, 255] := by decide

/-! WE_ENCODE (T24, T41 to T58). -/

/-- T24: the control byte comes from the corrected bytes. -/
theorem test_encode_gamma : traceOf (exec (.weEncode [⟨255, 128, 64⟩])
      (withLut .rgb [(255, 255), (384, 56), (576, 12)])) =
    some [.serialWrite [0, 0, 0, 0, 0xCF, 0xFF, 0x38, 0x0C] 8] := by decide

/-- T55, `BGR`. -/
theorem test_encode_bgr : traceOf (exec (.weEncode [⟨10, 20, 30⟩, ⟨200, 100, 255⟩])
      (withLut .bgr [(10, 10), (200, 200), (276, 235), (356, 155), (542, 15), (767, 127)])) =
    some [.serialWrite [0, 0, 0, 0, 0xF3, 0x0F, 0xEB, 0x0A, 0xC6, 0x7F, 0x9B, 0xC8] 12] := by decide

/-- T57. -/
theorem test_encode_refused (s : State) :
    exec (.weEncode (many 21846)) s = .refused .tooManyPixels := by
  simp [exec, execWeEncode, Config.pixMax, many_length]

/-- T58: the fault is recorded, and the buffer has its length. -/
theorem test_encode_unwritten : (nextOf (exec (.weEncode [⟨0, 0, 0⟩]) State.reset)).map
      (fun s => (s.faults, s.we.outLen.toNat)) =
    some ([.unwrittenLutEntry 0 0, .unwrittenLutEntry 1 0, .unwrittenLutEntry 2 0], 8) := by decide

/-! The serial writer (70_reset_and_hazards.md R290, 93_implementation_defined.md U17). -/

theorem test_encode_blocked : faultIn (exec (.weEncode []) (withWriter (.blocksAfter 0) State.reset)) =
    some .serialWriterBlocked := by decide

theorem test_encode_last_write : (nextOf (exec (.weEncode []) (withWriter (.blocksAfter 1) State.reset))).map
    (fun s => (s.writer, s.we.outLen.toNat)) = some (.blocksAfter 0, 4) := by decide

theorem test_byte_blocked : faultIn (exec (.fdByte 0 0x3C) (withWriter (.blocksAfter 0) (withFds [fdFive]))) =
    some .serialWriterBlocked := by decide

/-- A frame of another command makes no write. -/
theorem test_byte_other_unblocked : traceOf (exec (.fdByte 0 0xBB) (withWriter (.blocksAfter 0)
      (withFds [fdWith 9 255 0 2 4 [(0, 0xAA)] 1]))) = some [.frameDone 9 255 2] := by decide

theorem test_handler_blocked : faultIn (fdByteWith (fun _ _ _ _ => [.lutWrite 0 1 2, .encode [], .hang]) 0 0 (withFds [fdThree])) =
    some .handlerBlocked := by decide

/-! RESET (T60, T61). -/

theorem test_reset : fdStatus (exec (.reset none) (withFds [fdFive])) = some (false, 0, 0) := by decide

theorem test_reset_quiet : traceOf (exec (.reset (some 0)) (withFds [fdFive])) = some [] := by decide

/-! The step. -/

theorem test_step_idle : nextOf (step State.reset) = some State.reset := by decide

theorem test_step_open : fdStatus (step (State.reset.withFetchWord 8 0x1)) = some (true, 0, 0) := by decide

theorem test_step_byte : fdStatus (step (State.reset.withFetchWord 16 0x2AB)) = some (true, 1, 0) := by decide

theorem test_step_header : traceOf (step (State.reset.withFetchWord 32 0x05020003)) =
    some [.frameDone 5 2 3] := by decide

theorem test_step_reserved : refusalIn (step (State.reset.withFetchWord 8 0x7)) = some (.reservedTag 7) := by decide

/-! Witnesses: for each statement with hypotheses, values that meet all of them, at the boundaries of its clauses. -/

theorem inv_opened : fdOpened.Inv := by
  constructor <;> decide

theorem inv_three : fdThree.Inv := by
  constructor <;> decide

theorem inv_five : fdFive.Inv := by
  constructor <;> decide

/-- InvariantHoldsAtReset's reset half, and the hypothesis of InvariantPreservedByEveryOperation, for an operation that
answers. -/
theorem witness_InvariantPreservedByEveryOperation : State.reset.Inv ∧
    ∃ t, exec (.fdOpen 0) State.reset = .next t ∧ ∃ u, step State.reset = .next u := by
  refine ⟨⟨?_, ?_⟩, ⟨_, rfl, _, rfl⟩⟩
  · intro fd h
    have : fd = FD.initial 0 := by simpa [State.reset, State.initial] using h
    subst this
    constructor <;> decide
  · constructor
    · exact .inl rfl
    all_goals decide

theorem witness_ResetOperationZeroesState : 0 < (withFds [fdFive]).fds.length := by decide

theorem witness_DecodeOfEncodeIsIdentity :
    (Instr.cmdOther 0 255 2 65535).wf = true ∧ (Instr.lutWrite 2 255 0).wf = true ∧
      (Instr.weEncode (many 21845)).wf = true := by
  refine ⟨by decide, by decide, ?_⟩
  simp [Instr.wf, Config.pixMax, many_length]

theorem witness_OperationWordIsDeterminedByItsMeaning :
    decode ⟨some 3, [false, false, true, true]⟩ = .ok (.fdClose 3) := rfl

theorem witness_ReservedTagsRefused :
    6 ≤ (6#4).toNat ∧ (14#4).toNat ≤ 14 ∧
      ({ State.reset with input := [⟨none, toBits 4 (6#4).toNat ++ [true]⟩] } : State).input =
        ⟨none, toBits 4 (6#4).toNat ++ [true]⟩ :: [] := by decide

theorem witness_StepRunsDecodedOperation :
    ({ State.reset with input := [⟨none, [true, true, true, true]⟩] } : State).input =
        ⟨none, [true, true, true, true]⟩ :: [] ∧
      decode ⟨none, [true, true, true, true]⟩ = .ok (.reset none) ∧ State.reset.input = [] := ⟨rfl, rfl, rfl⟩

theorem witness_CompletesExactlyWhenEnabled :
    Enabled (.fdOpen 0) State.reset ∧ ¬ Enabled (.fdByte 0 0) State.reset ∧ Enabled (.reset none) State.reset ∧
      Enabled (.weEncode []) State.reset ∧ Writes (.weEncode []) State.reset ∧ State.reset.writer.returns = true ∧
      ∃ f, exec (.weEncode []) (withWriter (.blocksAfter 0) State.reset) = .fault f := by
  refine ⟨⟨_, rfl, rfl⟩, ?_, trivial, Nat.zero_le _, Nat.zero_le _, rfl, ⟨_, rfl⟩⟩
  rintro ⟨fd, h, hc⟩
  obtain rfl : FD.initial 0 = fd := Option.some.inj h
  exact absurd hc (by decide)

theorem witness_RefusalsByName :
    State.reset.fds[0]? = some (FD.initial 0) ∧ (FD.initial 0).conn = false ∧
      (withFds [fdOpened]).fds[0]? = some fdOpened ∧ fdOpened.conn = true ∧
      21845 < (many 21846).length ∧ State.reset.fds.length ≤ 1 := by
  refine ⟨rfl, rfl, rfl, rfl, by simp [many_length], by decide⟩

theorem witness_BlockedWriteMakesNoFurtherStep :
    Writes (.fdByte 0 0x3C) (withWriter (.blocksAfter 0) (withFds [fdFive])) ∧ Completes fdFive 0x3C ∧
      Writes (.setPixels 0 255 3) (withFds [fdFive]) ∧ ¬ Writes (.fdOpen 0) State.reset ∧
      Writes (.weEncode []) State.reset ∧
      (∃ t, exec (.weEncode []) (withWriter (.blocksAfter 1) State.reset) = .next t) ∧
      (∃ t, exec (.fdOpen 0) State.reset = .next t) ∧
      ∃ h : Handler, ∀ n px, ∃ pre post, h fdFive.hdrAddr n px (withFds [fdFive]).we = pre ++ .hang :: post ∧
        pre ≠ [] ∧ ∀ op ∈ pre, op.Admitted := by
  have hc : Completes fdFive 0x3C := .inr ⟨by decide, by decide⟩
  exact ⟨⟨fdFive, rfl, rfl, hc, by decide, by decide⟩, hc, ⟨by decide, by decide⟩, id, Nat.zero_le _, ⟨_, rfl⟩, ⟨_, rfl⟩,
    fun _ _ _ _ => [.lutWrite 0 1 2, .hang], fun _ _ => ⟨[.lutWrite 0 1 2], [], rfl, by simp, by simp [WeOp.Admitted]⟩⟩

theorem witness_TimeoutIsIdentity : 0 < State.reset.fds.length := by decide

theorem witness_OpenConnectsWithClearedCounters :
    State.reset.fds[0]? = some (FD.initial 0) ∧ (FD.initial 0).conn = false ∧
      (withFds [fdFive]).fds[0]? = some fdFive ∧ fdFive.conn = true := ⟨rfl, rfl, rfl, rfl⟩

theorem witness_CloseDiscardsPartialFrame : (withFds [fdFive]).fds[0]? = some fdFive := rfl

theorem witness_HeaderByteStoredAtItsCount :
    (withFds [fdOpened]).fds[0]? = some fdOpened ∧ fdOpened.conn = true ∧ fdOpened.hdrCnt = 0 ∧
      (withFds [fdWith 1 0 0 0 1 [] 0]).fds[0]? = some (fdWith 1 0 0 0 1 [] 0) ∧ (fdWith 1 0 0 0 1 [] 0).hdrCnt = 1 ∧
      (withFds [fdWith 1 1 0 0 2 [] 0]).fds[0]? = some (fdWith 1 1 0 0 2 [] 0) ∧ (fdWith 1 1 0 0 2 [] 0).hdrCnt = 2 ∧
      (withFds [fdThree]).fds[0]? = some fdThree ∧ fdThree.hdrCnt = 3 ∧
      fdThree.hdrLenHi.toNat * 256 + (1#8).toNat ≠ 0 := by decide

theorem witness_ZeroLengthFrameCompletesAtFourthHeaderByte :
    (withFds [fdThree]).fds[0]? = some fdThree ∧ fdThree.conn = true ∧ fdThree.hdrCnt = 3 ∧ fdThree.hdrLenHi = 0 ∧
      fdThree.hdrCmd = 1 ∧ (withFds [fdThree]).cfg.accepts fdThree.hdrAddr = true ∧
      (withFds [fdThree]).writer.returns = true ∧ (fdWith 1 2 0 0 3 [] 0).hdrCmd ≠ 1 := by
  decide

theorem witness_PayloadByteStoredAtItsCount :
    (withFds [fdWith 1 1 0 6 4 [] 0]).fds[0]? = some (fdWith 1 1 0 6 4 [] 0) ∧ (fdWith 1 1 0 6 4 [] 0).hdrCnt = 4 ∧
      (fdWith 1 1 0 6 4 [] 0).payCnt.toNat + 1 ≠
        (fdWith 1 1 0 6 4 [] 0).hdrLenHi.toNat * 256 + (fdWith 1 1 0 6 4 [] 0).hdrLenLo.toNat := by decide

/-- The six payload bytes of X1. -/
def payloadX1 : List Byte := [0x0A, 0x14, 0x1E, 0x28, 0x32, 0x3C]

theorem witness_LastPayloadByteDispatchesFrame :
    (withFds [fdFive]).fds[0]? = some fdFive ∧ fdFive.conn = true ∧ fdFive.hdrCnt = 4 ∧
      payloadX1.length = fdFive.hdrLenHi.toNat * 256 + fdFive.hdrLenLo.toNat ∧
      payloadX1.length = fdFive.payCnt.toNat + 1 ∧
      (∀ j, j < fdFive.payCnt.toNat → fdFive.pay.read j = payloadX1[j]?) ∧
      payloadX1[fdFive.payCnt.toNat]? = some 0x3C ∧ fdFive.hdrCmd = 1 ∧
      (withFds [fdFive]).cfg.accepts fdFive.hdrAddr = true ∧ (withFds [fdFive]).writer.returns = true ∧
      (⟨.rgb, 0, 255⟩ : Config).accepts fdFive.hdrAddr = false := by decide

theorem witness_SetPixelsReportsWholePixels :
    (withFds [fdFive]).fds[0]? = some fdFive ∧ (payloadX1.take 5).length = (5#16).toNat ∧
      (∀ j, j < (5#16).toNat → fdFive.pay.read j = (payloadX1.take 5)[j]?) ∧
      (withFds [fdFive]).cfg.accepts 0 = true ∧ (withFds [fdFive]).cfg.accepts 255 = true ∧
      (withFds [fdFive]).writer.returns = true ∧
      (⟨.rgb, 0, 255⟩ : Config).accepts 255 = false := by decide

theorem witness_OtherCommandsDoNothing : 0 < State.reset.fds.length := by decide

theorem witness_FdByteFrame : (withFds [fdFive]).fds[0]? = some fdFive ∧
    (∃ t, exec (.fdByte 0 0x3C) (withFds [fdFive]) = .next t) ∧ Completes fdFive 0x3C ∧ ¬ Completes fdThree 6 := by
  refine ⟨rfl, ⟨_, rfl⟩, .inr ⟨by decide, by decide⟩, ?_⟩
  rintro (⟨-, -, h⟩ | ⟨h, -⟩)
  · exact absurd h (by decide)
  · exact absurd h (by decide)

theorem witness_WantCountsMissingBytes : fdFive.Inv ∧ fdThree.Inv ∧ fdOpened.Inv ∧
    (withFds [fdThree]).fds[0]? = some fdThree ∧ fdThree.conn = true ∧
    (∃ t fd', exec (.fdByte 0 6) (withFds [fdThree]) = .next t ∧ t.fds[0]? = some fd') ∧
    fdFive.want = 1 ∧ fdThree.want = 1 ∧ fdOpened.want = 4 := by
  refine ⟨inv_five, inv_three, inv_opened, rfl, rfl, ⟨_, _, rfl, rfl⟩, ?_⟩
  decide

theorem witness_StateMachineFollowsTable :
    (withFds [fdFive]).fds[0]? = some fdFive ∧ fdFive.Inv ∧ fdFive.phase = .awaitPayload ∧
      fdThree.Inv ∧ fdThree.phase = .awaitHeader ∧ (withFds [fdFive]).writer.returns = true ∧
      (FD.initial 0).Inv ∧ (FD.initial 0).phase = .disconnected := by
  refine ⟨rfl, inv_five, by decide, inv_three, by decide, rfl, ?_, by decide⟩
  constructor <;> decide

theorem holds_identity (fd : FD) : (loaded fd).we.Holds (fun _ v => v) := by
  intro c hc v
  have hv := v.isLt
  have hc3 : c.toNat ≠ 3 := fun h => hc (BitVec.eq_of_toNat_eq h)
  have hc4 := c.isLt
  change Mem.read ((List.range' 0 768).map (fun a => (a, BitVec.ofNat 8 a))) (lutAddr c v) = some v
  rw [read_map_range' (fun a => BitVec.ofNat 8 a), lutAddr_eq, if_pos (by omega)]
  congr 1
  apply BitVec.eq_of_toNat_eq
  simp only [BitVec.toNat_ofNat]
  omega

theorem witness_ConnectionEventsAreThoseOfItsFrames :
    (loaded fdOpened).fds[0]? = some fdOpened ∧ fdOpened.Inv ∧ fdOpened.conn = true ∧ fdOpened.hdrCnt = 0 ∧
      (loaded fdOpened).we.Holds (fun _ v => v) ∧ (loaded fdOpened).writer = .dutiful ∧
      (∀ f ∈ [(⟨5, 1, []⟩ : Frame)], f.Fits) ∧ Incomplete [7, 1] ∧
      OnlyBytesAndTimeouts 0 (loaded fdOpened).fds.length
        [.fdByte 0 5, .fdByte 0 1, .fdTimeout 0, .fdByte 0 0, .fdByte 0 0, .fdByte 0 7, .fdByte 0 1] ∧
      deliveredTo 0 [.fdByte 0 5, .fdByte 0 1, .fdTimeout 0, .fdByte 0 0, .fdByte 0 0, .fdByte 0 7, .fdByte 0 1] =
        [(⟨5, 1, []⟩ : Frame)].flatMap Frame.bytes ++ [7, 1] := by
  refine ⟨rfl, inv_opened, rfl, rfl, holds_identity _, rfl, ?_, .inl (by decide), ?_, by decide⟩
  · intro f hf
    obtain rfl : f = ⟨5, 1, []⟩ := by simpa using hf
    simp [Frame.Fits]
  · intro i hi
    simp only [List.mem_cons, List.not_mem_nil, or_false] at hi
    rcases hi with rfl | rfl | rfl | rfl | rfl | rfl | rfl
    · exact .inl ⟨_, rfl⟩
    · exact .inl ⟨_, rfl⟩
    · exact .inr ⟨0, by decide, rfl⟩
    · exact .inl ⟨_, rfl⟩
    · exact .inl ⟨_, rfl⟩
    · exact .inl ⟨_, rfl⟩
    · exact .inl ⟨_, rfl⟩

/-- A tail with a whole header whose payload is one byte short of its length, the other clause of `Incomplete`. -/
theorem witness_incomplete_payload : Incomplete [9, 1, 1, 0, 3] :=
  .inr ⟨9, 1, 1, 0, [3], rfl, by decide⟩

theorem witness_EveryByteStringIsDecoded :
    (loaded fdOpened).fds[0]? = some fdOpened ∧ fdOpened.Inv ∧ fdOpened.conn = true ∧ fdOpened.hdrCnt = 0 ∧
      (loaded fdOpened).we.Holds (fun _ v => v) ∧ (loaded fdOpened).writer = .dutiful :=
  ⟨rfl, inv_opened, rfl, rfl, holds_identity _, rfl⟩

/-- Two states that differ in a stale header byte, a stale payload cell and a stale output cell. -/
theorem witness_StaleBytesNeverInfluenceEvents :
    (withFds [fdOpened]).Inv ∧ (withFds [fdWith 7 1 2 3 0 [(0, 9)] 0]).Inv ∧
      (withFds [fdOpened]).Agree (withFds [fdWith 7 1 2 3 0 [(0, 9)] 0]) ∧
      (∀ src addr len, Instr.fdByte 0 4 ≠ .setPixels src addr len) ∧
      ∃ t, exec (.fdByte 0 4) (withFds [fdOpened]) = .next t := by
  have we : State.reset.we.Inv := witness_InvariantPreservedByEveryOperation.1.encoder
  refine ⟨⟨?_, we⟩, ⟨?_, we⟩, ?_, by simp, ⟨_, rfl⟩⟩
  · intro fd h
    obtain rfl : fd = fdOpened := by simpa [withFds] using h
    exact inv_opened
  · intro fd h
    obtain rfl : fd = fdWith 7 1 2 3 0 [(0, 9)] 0 := by simpa [withFds] using h
    constructor <;> decide
  · constructor
    · refine List.Forall₂.cons ?_ .nil
      constructor <;> decide
    all_goals first | rfl | decide

theorem witness_HandlerCannotChangeDecoders :
    (∃ t, fdByteWith (fun _ _ _ _ => []) 0 0 (withFds [fdThree]) = .next t) ∧
      ∃ t, fdByteWith (fun _ _ _ _ => [.lutWrite 0 1 2]) 0 0 (withFds [fdThree]) = .next t :=
  ⟨⟨_, rfl⟩, ⟨_, rfl⟩⟩

theorem witness_PollOutcomesAreNeverRefused :
    (withFds [fdOpened]).fds[0]? = some fdOpened ∧ (PollOutcome.bytes 1 [2]).possible fdOpened.conn = true ∧
      State.reset.fds[0]? = some (FD.initial 0) ∧ PollOutcome.accepted.possible (FD.initial 0).conn = true ∧
      State.reset.writer = .dutiful := by
  decide

theorem witness_SimultaneousByteCloseOpenOrder : (withFds [fdFive]).fds[0]? = some fdFive ∧ fdFive.conn = true ∧
    (withFds [fdFive]).writer.returns = true := by
  decide

theorem witness_LutWriteStoresOneEntry : (2#2) ≠ 3#2 ∧ (3#2) = 3#2 := by decide

theorem witness_LutWritesOfDifferentEntriesCommute :
    State.reset.we.lut.wf 768 = true ∧ (0#2) ≠ 3#2 ∧ (2#2) ≠ 3#2 ∧ ((0#2, 255#8) : BitVec 2 × Byte) ≠ (2#2, 255#8) := by
  decide

theorem witness_ExponentOneIsIdentity : IsGammaTable (.real 1) (fun v => v) := by
  intro v _
  rw [Real.rpow_one, mul_div_cancel₀ _ (by norm_num), sub_self, abs_zero]
  norm_num

/-- There is a `gamma_fn`: for a positive exponent, the nearest integer. -/
theorem gammaFn_exists : Nonempty GammaFn := by
  have key : ∀ e v, ∃ n : Byte, GammaAllows e v n := by
    intro e v
    cases e with
    | posInf => exact ⟨0, trivial⟩
    | negInf => exact ⟨0, trivial⟩
    | nan => exact ⟨0, trivial⟩
    | real g =>
      by_cases hg : 0 < g
      · have hv : (v.toNat : ℝ) / 255 ≤ 1 := by
          rw [div_le_one (by norm_num)]
          exact_mod_cast Nat.le_of_lt_succ v.isLt
        have h0 : (0 : ℝ) ≤ (v.toNat : ℝ) / 255 := by positivity
        have hx0 : 0 ≤ 255 * ((v.toNat : ℝ) / 255) ^ g := by positivity
        have hx1 : 255 * ((v.toNat : ℝ) / 255) ^ g ≤ 255 := by
          have := Real.rpow_le_one h0 hv hg.le
          linarith
        generalize hx : 255 * ((v.toNat : ℝ) / 255) ^ g = x at hx0 hx1
        have hlo := Nat.floor_le (show 0 ≤ x + 1 / 2 by linarith)
        have hhi := Nat.lt_floor_add_one (x + 1 / 2)
        have hn : ⌊x + 1 / 2⌋₊ < 2 ^ 8 := by
          rw [Nat.floor_lt (by linarith)]
          push_cast
          linarith
        refine ⟨BitVec.ofNat 8 ⌊x + 1 / 2⌋₊, fun _ => ?_⟩
        rw [hx, BitVec.toNat_ofNat, Nat.mod_eq_of_lt hn, abs_le]
        constructor <;> linarith
      · exact ⟨0, fun h => absurd h hg⟩
  choose f hf using key
  exact ⟨⟨f, hf⟩⟩

theorem witness_GammaBuildLoadsTables : (∃ P : Parameters, P.config.colorOrder = .bgr) ∧
    State.reset.we.lut.wf 768 = true := by
  obtain ⟨γ⟩ := gammaFn_exists
  exact ⟨⟨⟨⟨.bgr, 0, 255⟩, 1, γ⟩, rfl⟩, rfl⟩

theorem witness_DiagnosticPixelIsOneEncode : Nonempty Parameters ∧ State.reset.writer.returns = true := by
  obtain ⟨γ⟩ := gammaFn_exists
  exact ⟨⟨⟨⟨.rgb, 0, 255⟩, 1, γ⟩⟩, rfl⟩

theorem witness_ReferenceContentsProperties : (0 : ℝ) < 1 ∧ IsGammaTable (.real 1) (fun v => v) :=
  ⟨one_pos, witness_ExponentOneIsIdentity⟩

theorem witness_EncodeWritesPreambleAndRecords : ([] : List Pixel).length ≤ 21845 ∧
    (many 21845).length ≤ 21845 ∧ 21845 < (many 21846).length ∧ State.reset.writer.returns = true ∧
    (withWriter (.blocksAfter 0) State.reset).writer.returns = false := by
  simp only [many_length]
  decide

theorem witness_EmptyEncodeSendsPreambleOnly : (withWriter (.blocksAfter 1) State.reset).writer.returns = true := rfl

theorem witness_UnwrittenEntryReadIsRecorded : ([⟨0, 0, 0⟩] : List Pixel).length ≤ 21845 ∧
    State.reset.writer.returns = true ∧ (loaded fdOpened).we.Loaded := by
  refine ⟨by decide, rfl, fun c hc v => ?_⟩
  rw [holds_identity fdOpened c hc v]
  rfl

theorem witness_EncoderBufferLaws : ([⟨1, 2, 3⟩] : List Pixel).length ≤ 21845 ∧
    (loaded fdOpened).we.Holds (fun _ v => v) ∧ (loaded fdOpened).cfg.colorOrder = .rgb ∧
    (withLut .bgr []).cfg.colorOrder = .bgr ∧ (loaded fdOpened).writer.returns = true :=
  ⟨by decide, holds_identity _, rfl, rfl, rfl⟩

theorem witness_RecordsAreIndependent :
    ((many 21844) ++ [(⟨4, 5, 6⟩ : Pixel)]).length ≤ 21845 ∧ State.reset.writer.returns = true :=
  ⟨by simp [many_length], rfl⟩

theorem witness_WriteResultAffectsNoState :
    (∀ src, Instr.weEncode [] ≠ .reset src) ∧
      State.reset.withoutResults = ({ State.reset with returns := [true], draws := 9 } : State).withoutResults ∧
      ∃ t, exec (.weEncode []) State.reset = .next t :=
  ⟨by simp, rfl, ⟨_, rfl⟩⟩

theorem witness_OperationChangesOnlyItsSource :
    (∃ t, exec (.fdOpen 0) (withFds [FD.initial 0, fdFive]) = .next t) ∧ ¬ touches (.fdOpen 0) 1 :=
  ⟨⟨_, rfl⟩, by simp [touches]⟩

theorem witness_TracesOnlyGrow : ∃ t, step (State.reset.withFetchWord 8 0x3) = .next t := ⟨_, rfl⟩

theorem witness_EventsComeOnlyFromTheirOperations : ∃ t, exec (.fdClose 0) State.reset = .next t := ⟨_, rfl⟩

theorem witness_EncoderOperationsFrame :
    (∃ t, exec (.lutWrite 2 255 1) State.reset = .next t) ∧ ∃ t, exec (.weEncode []) State.reset = .next t :=
  ⟨⟨_, rfl⟩, ⟨_, rfl⟩⟩

end Sys2Proof.Tests
end

section
/-!
PROOF. One step of the block: what it runs (00_scope.md R7), and that its trace, returned results and recorded faults only
grow (00_scope.md R10, 93_implementation_defined.md part 1).
-/

namespace Sys2Proof.Machine

/-! What a step does with its next input word. -/

/-- With no operation presented a step changes nothing (60_exceptions.md R267). -/
theorem step_of_input_nil {s : State} (hin : s.input = []) : step s = .next s := by
  simp [step, State.takeInput, hin]

/-- A step on a word that decodes runs the decoded operation in the state that has taken the word. -/
theorem step_of_decode_ok {s : State} {w : OpWord} {rest : List OpWord} {i : Instr} (hin : s.input = w :: rest)
    (hdec : decode w = .ok i) : step s = exec i { s with input := rest } := by
  simp [step, State.takeInput, hin, hdec]

/-- A step on a word that does not decode is refused. -/
theorem step_of_decode_error {s : State} {w : OpWord} {rest : List OpWord} {e : DecodeError}
    (hin : s.input = w :: rest) (hdec : decode w = .error e) : step s = .refused (refusalOf e) := by
  simp [step, State.takeInput, hin, hdec]

/-- A step answers a next state in two ways only: idle, or by the operation its next input word decodes to. -/
theorem step_eq_next {s t : State} (h : step s = .next t) :
    (s.input = [] ∧ t = s) ∨
      ∃ w rest i, s.input = w :: rest ∧ decode w = .ok i ∧ exec i { s with input := rest } = .next t := by
  cases hin : s.input with
  | nil =>
    rw [step_of_input_nil hin] at h
    exact .inl ⟨rfl, (Host.Outcome.next.inj h).symm⟩
  | cons w rest =>
    cases hdec : decode w with
    | ok i =>
      rw [step_of_decode_ok hin hdec] at h
      exact .inr ⟨w, rest, i, rfl, hdec, h⟩
    | error e =>
      rw [step_of_decode_error hin hdec] at h
      cases h

/-! What is only ever appended to. -/

/-- The three records of `s` are each a beginning of those of `t`. -/
structure RecordsExtend (s t : State) : Prop where
  trace : s.trace <+: t.trace
  returns : s.returns <+: t.returns
  faults : s.faults <+: t.faults

theorem RecordsExtend.of_eq {s t : State} (htrace : s.trace = t.trace) (hreturns : s.returns = t.returns)
    (hfaults : s.faults = t.faults) : RecordsExtend s t :=
  ⟨htrace ▸ List.prefix_rfl, hreturns ▸ List.prefix_rfl, hfaults ▸ List.prefix_rfl⟩

theorem RecordsExtend.trans {s t u : State} (h : RecordsExtend s t) (k : RecordsExtend t u) : RecordsExtend s u :=
  ⟨h.trace.trans k.trace, h.returns.trans k.returns, h.faults.trans k.faults⟩

theorem recordsExtend_setFd (s : State) (k : Nat) (fd : FD) : RecordsExtend s (s.setFd k fd) :=
  .of_eq rfl rfl rfl

theorem recordsExtend_emit (s : State) (e : Event) : RecordsExtend s (s.emit e) :=
  ⟨List.prefix_append .., List.prefix_rfl, List.prefix_rfl⟩

theorem recordsExtend_closeFd (s : State) (src : Nat) (fd : FD) : RecordsExtend s (s.closeFd src fd) :=
  (recordsExtend_setFd ..).trans (recordsExtend_emit ..)

theorem recordsExtend_wireEncode (px : List Pixel) (s : State) : RecordsExtend s (wireEncode px s) :=
  ⟨List.prefix_append .., List.prefix_append .., List.prefix_append ..⟩

theorem recordsExtend_commandState (cfg : Config) (fd : FD) (s : State) :
    RecordsExtend s (commandState cfg fd s) := by
  unfold commandState
  dsimp only
  split
  · split
    · exact ((recordsExtend_emit ..).trans (recordsExtend_emit ..)).trans (recordsExtend_wireEncode ..)
    · exact (recordsExtend_emit ..).trans (recordsExtend_emit ..)
  · exact recordsExtend_emit ..

theorem recordsExtend_completedState (cfg : Config) (src : Nat) (fd : FD) (s : State) :
    RecordsExtend s (completedState cfg src fd s) :=
  (recordsExtend_commandState ..).trans (recordsExtend_setFd ..)

theorem recordsExtend_execFdByte {src : Nat} {b : Byte} {s t : State} (h : execFdByte src b s = .next t) :
    RecordsExtend s t := by
  obtain ⟨fd, -, -, ⟨-, rfl⟩ | ⟨-, rfl⟩⟩ := execFdByte_next h
  · exact (recordsExtend_setFd ..).trans (recordsExtend_completedState ..)
  · exact recordsExtend_setFd ..

theorem recordsExtend_execFdOpen {src : Nat} {s t : State} (h : execFdOpen src s = .next t) :
    RecordsExtend s t := by
  obtain ⟨fd, -, hfd⟩ := onFd_eq_next.mp h
  split at hfd
  · cases hfd
  · cases hfd
    exact recordsExtend_setFd ..

theorem recordsExtend_execWeEncode {px : List Pixel} {s t : State} (h : execWeEncode px s = .next t) :
    RecordsExtend s t := by
  obtain ⟨-, -, rfl⟩ := execWeEncode_eq_next.mp h
  exact recordsExtend_wireEncode ..

/-- RESET, of one decoder or of the whole block, touches none of the three records. -/
theorem recordsExtend_execReset {src : Option Nat} {s t : State} (h : execReset src s = .next t) :
    RecordsExtend s t := by
  cases src with
  | none =>
    cases h
    exact .of_eq rfl rfl rfl
  | some k =>
    obtain ⟨fd, -, hfd⟩ := onFd_eq_next.mp h
    cases hfd
    exact .of_eq rfl rfl rfl

theorem recordsExtend_execSetPixels {src : Nat} {addr : Byte} {len : BitVec 16} {s t : State}
    (h : execSetPixels src addr len s = .next t) : RecordsExtend s t := by
  obtain ⟨fd, hfd, -⟩ := onFd_eq_next.mp h
  rw [execSetPixels, setPixelsWith_reference hfd] at h
  dsimp only at h
  split at h
  · exact (recordsExtend_emit ..).trans (recordsExtend_execWeEncode h)
  · cases h
    exact recordsExtend_emit ..

/-- Every operation only appends to the trace, the returned results and the recorded faults. -/
theorem recordsExtend_exec {i : Instr} {s t : State} (h : exec i s = .next t) : RecordsExtend s t := by
  cases i with
  | fdTimeout src =>
    obtain ⟨fd, -, hfd⟩ := onFd_eq_next.mp h
    cases hfd
    exact .of_eq rfl rfl rfl
  | fdOpen src => exact recordsExtend_execFdOpen h
  | fdByte src b => exact recordsExtend_execFdByte h
  | fdClose src =>
    obtain ⟨fd, -, hfd⟩ := onFd_eq_next.mp h
    cases hfd
    exact recordsExtend_closeFd ..
  | lutWrite c v val =>
    obtain ⟨-, rfl⟩ := execLutWrite_eq_next.mp h
    exact .of_eq rfl rfl rfl
  | weEncode px => exact recordsExtend_execWeEncode h
  | reset src => exact recordsExtend_execReset h
  | setPixels src addr len => exact recordsExtend_execSetPixels h
  | cmdOther src addr cmd len =>
    obtain ⟨fd, -, hfd⟩ := onFd_eq_next.mp h
    cases hfd
    exact .of_eq rfl rfl rfl

/-- Every step only appends: it is idle, or takes its input word, which touches no record, and runs one operation. -/
theorem recordsExtend_step {s t : State} (h : step s = .next t) : RecordsExtend s t := by
  obtain ⟨-, rfl⟩ | ⟨w, rest, i, -, -, hexec⟩ := step_eq_next h
  · exact .of_eq rfl rfl rfl
  · have htake : RecordsExtend s { s with input := rest } := .of_eq rfl rfl rfl
    exact htake.trans (recordsExtend_exec hexec)

/-- Settles O45: an operation's records extend those of the state it runs in, and a step is idle or one operation. -/
theorem tracesOnlyGrow : Obligations.TracesOnlyGrow := by
  intro s t h
  obtain ⟨htrace, hreturns, hfaults⟩ := recordsExtend_step h
  exact ⟨htrace, hreturns, hfaults⟩

/-- Settles O10, from the equations of a step on a word that decodes and on no word. -/
theorem stepRunsDecodedOperation : Obligations.StepRunsDecodedOperation :=
  ⟨fun _ _ _ _ => step_of_decode_ok, fun _ => step_of_input_nil⟩

end Sys2Proof.Machine
end

section
/-!
PROOF. What an operation can do, said once: the next states `exec` answers, one constructor per row of the opcode table and
per ending of that row, each with the condition under which it is answered.
-/

namespace Sys2Proof.Machine

/-- A command and its handler touch no decoder, so storing a decoder may come before or after them. -/
theorem commandState_setFd (cfg : Config) (fd : FD) (s : State) (k : Nat) (x : FD) :
    commandState cfg fd (s.setFd k x) = (commandState cfg fd s).setFd k x := by
  unfold commandState
  dsimp only
  split
  · split <;> rfl
  · rfl

/-- A completion overwrites the decoder it started from with the cleared one. -/
theorem completedState_setFd (cfg : Config) (src : Nat) (fd x : FD) (s : State) :
    completedState cfg src fd (s.setFd src x) = (commandState cfg fd s).setFd src fd.clearCounters := by
  rw [completedState, commandState_setFd, setFd_setFd]

/-- The operation `i` takes the state `s` to the next state `t` (`execNext_iff`). -/
inductive ExecNext : Instr → State → State → Prop where
  /-- 41_link_events.md R173. -/
  | timeout {src s fd} (hfd : s.fdAt src = some fd) : ExecNext (.fdTimeout src) s s
  /-- 41_link_events.md R170. -/
  | opened {src s fd} (hfd : s.fdAt src = some fd) (hconn : fd.conn = false) :
      ExecNext (.fdOpen src) s (s.setFd src { fd.clearCounters with conn := true })
  /-- 40_frame_decoder.md R131, R132. -/
  | byteStored {src b s fd} (hfd : s.fdAt src = some fd) (hconn : fd.conn = true) (hmore : ¬ Completes fd b) :
      ExecNext (.fdByte src b) s (s.setFd src (fd.stored b))
  /-- 40_frame_decoder.md R133, R134. -/
  | byteCompletes {src b s fd} (hfd : s.fdAt src = some fd) (hconn : fd.conn = true) (hlast : Completes fd b)
      (hwriter : fd.hdrCmd = Config.cmdSetPixels → s.cfg.accepts fd.hdrAddr = true → s.writer.returns = true) :
      ExecNext (.fdByte src b) s
        ((commandState s.cfg (fd.stored b) s).setFd src (fd.stored b).clearCounters)
  /-- 41_link_events.md R171. -/
  | closed {src s fd} (hfd : s.fdAt src = some fd) : ExecNext (.fdClose src) s (s.closeFd src fd)
  /-- 42_gamma_lut.md R190, R191. -/
  | tableWritten {c v val s} (hc : c ≠ 3#2) :
      ExecNext (.lutWrite c v val) s { s with we := { s.we with lut := s.we.lut.write (lutAddr c v) val } }
  /-- 43_wire_encoder.md R210, R211. -/
  | encoded {px s} (hn : px.length ≤ Config.pixMax) (hwriter : s.writer.returns = true) :
      ExecNext (.weEncode px) s (wireEncode px s)
  /-- 70_reset_and_hazards.md R280. -/
  | decoderReset {src s fd} (hfd : s.fdAt src = some fd) :
      ExecNext (.reset (some src)) s { s.setFd src (FD.afterReset s.draws) with draws := s.draws + 1 }
  /-- 70_reset_and_hazards.md R280. -/
  | blockReset {s} : ExecNext (.reset none) s (resetBlock s)
  /-- 40_frame_decoder.md R135, for an address the composition does not accept (44_dataflow.md R242). -/
  | pixelsIgnored {src addr len s fd} (hfd : s.fdAt src = some fd) (haccept : s.cfg.accepts addr = false) :
      ExecNext (.setPixels src addr len) s (s.emit (.pixels addr (pixelCount len) (fd.pixels (pixelCount len))))
  /-- 40_frame_decoder.md R135, for an address the composition accepts (44_dataflow.md R240). -/
  | pixelsEncoded {src addr len s fd} (hfd : s.fdAt src = some fd) (haccept : s.cfg.accepts addr = true)
      (hwriter : s.writer.returns = true) :
      ExecNext (.setPixels src addr len) s (wireEncode (fd.pixels (pixelCount len))
        (s.emit (.pixels addr (pixelCount len) (fd.pixels (pixelCount len)))))
  /-- 40_frame_decoder.md R136. -/
  | commandIgnored {src addr cmd len s fd} (hfd : s.fdAt src = some fd) :
      ExecNext (.cmdOther src addr cmd len) s s

theorem execNext_fdByte {src : Nat} {b : Byte} {s t : State} (h : execFdByte src b s = .next t) :
    ExecNext (.fdByte src b) s t := by
  obtain ⟨fd, hfd, hconn, ⟨hlast, rfl⟩ | ⟨hmore, rfl⟩⟩ := execFdByte_next h
  · rw [completedState_setFd]
    refine .byteCompletes hfd hconn hlast fun hcmd haccept => ?_
    obtain ⟨-, hstuck, -⟩ := execFdByte_eq (b := b) hfd hconn
    cases hwriter : s.writer.returns with
    | true => rfl
    | false =>
      rw [hstuck hlast hcmd haccept hwriter] at h
      cases h
  · exact .byteStored hfd hconn hmore

theorem execNext_setPixels {src : Nat} {addr : Byte} {len : BitVec 16} {s t : State}
    (h : execSetPixels src addr len s = .next t) : ExecNext (.setPixels src addr len) s t := by
  obtain ⟨fd, hfd, -⟩ := onFd_eq_next.mp h
  rw [execSetPixels, setPixelsWith_reference hfd] at h
  dsimp only at h
  split at h
  · next haccept =>
    obtain ⟨-, hwriter, rfl⟩ := execWeEncode_eq_next.mp h
    exact .pixelsEncoded hfd haccept hwriter
  · next haccept =>
    cases h
    exact .pixelsIgnored hfd (by simpa using haccept)

theorem execNext_of_exec {i : Instr} {s t : State} (h : exec i s = .next t) : ExecNext i s t := by
  cases i with
  | fdTimeout src =>
    obtain ⟨fd, hfd, hf⟩ := onFd_eq_next.mp h
    cases hf
    exact .timeout hfd
  | fdOpen src =>
    obtain ⟨fd, hfd, hf⟩ := onFd_eq_next.mp h
    split at hf
    · cases hf
    · next hconn =>
      cases hf
      exact .opened hfd (by simpa using hconn)
  | fdByte src b => exact execNext_fdByte h
  | fdClose src =>
    obtain ⟨fd, hfd, hf⟩ := onFd_eq_next.mp h
    cases hf
    exact .closed hfd
  | lutWrite c v val =>
    obtain ⟨hc, rfl⟩ := execLutWrite_eq_next.mp h
    exact .tableWritten hc
  | weEncode px =>
    obtain ⟨hn, hwriter, rfl⟩ := execWeEncode_eq_next.mp h
    exact .encoded hn hwriter
  | reset src =>
    cases src with
    | none =>
      cases h
      exact .blockReset
    | some src =>
      obtain ⟨fd, hfd, hf⟩ := onFd_eq_next.mp h
      cases hf
      exact .decoderReset hfd
  | setPixels src addr len => exact execNext_setPixels h
  | cmdOther src addr cmd len =>
    obtain ⟨fd, hfd, hf⟩ := onFd_eq_next.mp h
    cases hf
    exact .commandIgnored hfd

theorem exec_of_execNext {i : Instr} {s t : State} (h : ExecNext i s t) : exec i s = .next t := by
  cases h with
  | timeout hfd => exact onFd_of_some hfd _
  | opened hfd hconn => exact (onFd_of_some hfd _).trans (if_neg (by simp [hconn]))
  | byteStored hfd hconn hmore =>
    obtain ⟨-, -, hstored⟩ := execFdByte_eq hfd hconn
    exact hstored hmore
  | byteCompletes hfd hconn hlast hwriter =>
    obtain ⟨hcompletes, -, -⟩ := execFdByte_eq hfd hconn
    exact (hcompletes hlast hwriter).trans (by rw [completedState_setFd])
  | closed hfd => exact onFd_of_some hfd _
  | tableWritten hc => exact if_neg hc
  | encoded hn hwriter => exact execWeEncode_eq_next.mpr ⟨hn, hwriter, rfl⟩
  | decoderReset hfd => exact onFd_of_some hfd _
  | blockReset => rfl
  | pixelsIgnored hfd haccept =>
    exact (setPixelsWith_reference hfd).trans (if_neg (by simp [haccept]))
  | pixelsEncoded hfd haccept hwriter =>
    refine (setPixelsWith_reference hfd).trans ((if_pos haccept).trans ?_)
    exact execWeEncode_eq_next.mpr ⟨by simpa using pixelCount_le _, hwriter, rfl⟩
  | commandIgnored hfd => exact onFd_of_some hfd _

/-- `exec` answers a next state exactly as `ExecNext` lists. -/
theorem execNext_iff {i : Instr} {s t : State} : exec i s = .next t ↔ ExecNext i s t :=
  ⟨execNext_of_exec, exec_of_execNext⟩

end Sys2Proof.Machine
end

section
/-!
PROOF. The decoder after the store of a byte: each field, and when it is the end of a frame.
-/

namespace Sys2Proof.Machine

/-- A header store writes the register its count selects. -/
theorem setHdr_header (fd : FD) (i : Nat) (b : Byte) :
    (fd.setHdr i b).hdrAddr = (if i = 0 then b else fd.hdrAddr) ∧
    (fd.setHdr i b).hdrCmd = (if i = 1 then b else fd.hdrCmd) ∧
    (fd.setHdr i b).hdrLenHi = (if i = 2 then b else fd.hdrLenHi) ∧
    (fd.setHdr i b).hdrLenLo = (if 3 ≤ i then b else fd.hdrLenLo) := by
  match i with
  | 0 | 1 | 2 | _ + 3 => simp [FD.setHdr]

/-- A header store changes header registers only. -/
theorem setHdr_rest (fd : FD) (i : Nat) (b : Byte) : (fd.setHdr i b).conn = fd.conn ∧
    (fd.setHdr i b).pay = fd.pay ∧ (fd.setHdr i b).payCnt = fd.payCnt := by
  match i with
  | 0 | 1 | 2 | _ + 3 => exact ⟨rfl, rfl, rfl⟩

theorem stored_of_header {fd : FD} (h : fd.hdrCnt.toNat < 4) (b : Byte) : fd.stored b = fd.storeHeader b :=
  if_pos h

theorem stored_of_payload {fd : FD} (h : 4 ≤ fd.hdrCnt.toNat) (b : Byte) : fd.stored b = fd.storePayload b :=
  if_neg (by omega)

section stored
variable (fd : FD) (b : Byte)

@[simp] theorem stored_conn : (fd.stored b).conn = fd.conn := by
  unfold FD.stored
  split
  · obtain ⟨hconn, -, -⟩ := setHdr_rest fd fd.hdrCnt.toNat b
    exact hconn
  · rfl

theorem stored_header :
    (fd.stored b).hdrAddr = (if fd.hdrCnt = 0 then b else fd.hdrAddr) ∧
    (fd.stored b).hdrCmd = (if fd.hdrCnt = 1 then b else fd.hdrCmd) ∧
    (fd.stored b).hdrLenHi = (if fd.hdrCnt = 2 then b else fd.hdrLenHi) ∧
    (fd.stored b).hdrLenLo = (if fd.hdrCnt = 3 then b else fd.hdrLenLo) := by
  rcases Nat.lt_or_ge fd.hdrCnt.toNat 4 with h | h
  · obtain ⟨haddr, hcmd, hhi, hlo⟩ := setHdr_header fd fd.hdrCnt.toNat b
    simp only [stored_of_header h, FD.storeHeader, haddr, hcmd, hhi, hlo]
    refine ⟨if_congr ?_ rfl rfl, if_congr ?_ rfl rfl, if_congr ?_ rfl rfl, if_congr ?_ rfl rfl⟩ <;> bv_omega
  · rw [stored_of_payload h]
    refine ⟨(if_neg ?_).symm, (if_neg ?_).symm, (if_neg ?_).symm, (if_neg ?_).symm⟩ <;> bv_omega

theorem stored_hdrAddr : (fd.stored b).hdrAddr = if fd.hdrCnt = 0 then b else fd.hdrAddr :=
  let ⟨haddr, _⟩ := stored_header fd b; haddr

theorem stored_hdrCmd : (fd.stored b).hdrCmd = if fd.hdrCnt = 1 then b else fd.hdrCmd :=
  let ⟨_, hcmd, _⟩ := stored_header fd b; hcmd

theorem stored_hdrLenHi : (fd.stored b).hdrLenHi = if fd.hdrCnt = 2 then b else fd.hdrLenHi :=
  let ⟨_, _, hhi, _⟩ := stored_header fd b; hhi

theorem stored_hdrLenLo : (fd.stored b).hdrLenLo = if fd.hdrCnt = 3 then b else fd.hdrLenLo :=
  let ⟨_, _, _, hlo⟩ := stored_header fd b; hlo

theorem stored_hdrCnt :
    (fd.stored b).hdrCnt = if fd.hdrCnt.toNat < 4 then fd.hdrCnt + 1 else fd.hdrCnt := by
  unfold FD.stored
  split <;> rfl

theorem stored_payCnt :
    (fd.stored b).payCnt = if fd.hdrCnt.toNat < 4 then fd.payCnt else fd.payCnt + 1 := by
  unfold FD.stored
  split
  · obtain ⟨-, -, hcnt⟩ := setHdr_rest fd fd.hdrCnt.toNat b
    exact hcnt
  · rfl

theorem stored_pay :
    (fd.stored b).pay = if fd.hdrCnt.toNat < 4 then fd.pay else fd.pay.write fd.payCnt.toNat b := by
  unfold FD.stored
  split
  · obtain ⟨-, hpay, -⟩ := setHdr_rest fd fd.hdrCnt.toNat b
    exact hpay
  · rfl

end stored

/-- A header register that is not stale after the store was not stale before, or is the one stored. -/
theorem lt_hdrCnt_of_stored {fd : FD} {b : Byte} {n : Nat} (hlt : n < (fd.stored b).hdrCnt.toNat)
    (hne : fd.hdrCnt.toNat ≠ n) : n < fd.hdrCnt.toNat := by
  rw [stored_hdrCnt] at hlt
  split at hlt <;> bv_omega

/-- A byte of the payload path does not change the declared length. -/
theorem stored_payLen_of_payload {fd : FD} (h : 4 ≤ fd.hdrCnt.toNat) (b : Byte) :
    (fd.stored b).payLen = fd.payLen := by
  rw [stored_of_payload h]
  rfl

/-- The last header byte is the low byte of the declared length (30_encoding.md R94). -/
theorem stored_payLen_of_lastHeader {fd : FD} (h : fd.hdrCnt = 3) (b : Byte) :
    (fd.stored b).payLen.toNat = fd.hdrLenHi.toNat * 256 + b.toNat := by
  rw [payLen_toNat, stored_hdrLenHi, stored_hdrLenLo, if_neg (by simp [h]), if_pos h]

/-- The last header byte completes a frame exactly when it makes the declared length 0 (40_frame_decoder.md R133). -/
theorem completes_iff_of_lastHeader {fd : FD} {b : Byte} (h : fd.hdrCnt = 3) :
    Completes fd b ↔ fd.hdrLenHi.toNat * 256 + b.toNat = 0 := by
  simp [Completes, h, ← BitVec.toNat_inj]

/-- A byte of the payload path completes a frame exactly when it is the last one declared (40_frame_decoder.md R132). -/
theorem completes_iff_of_payload {fd : FD} {b : Byte} (h : 4 ≤ fd.hdrCnt.toNat) :
    Completes fd b ↔ fd.payCnt.toNat + 1 = fd.payLen.toNat := by
  have h3 : fd.hdrCnt ≠ 3 := by bv_omega
  rw [Completes, or_iff_right (fun hheader => h3 hheader.1), and_iff_right h]

/-- No byte before the last of the header completes a frame. -/
theorem not_completes_of_hdrCnt {fd : FD} {b : Byte} (h : fd.hdrCnt.toNat < 3) : ¬ Completes fd b := by
  rintro (⟨h3, -⟩ | ⟨h4, -⟩)
  · simp [h3] at h
  · omega

/-- Where the header stands when a byte arrives: before its last byte, at it, or complete. -/
theorem hdrCnt_cases (fd : FD) : fd.hdrCnt.toNat < 3 ∨ fd.hdrCnt = 3 ∨ 4 ≤ fd.hdrCnt.toNat := by
  bv_omega

/-- After the last byte of a frame the whole header is there, and the payload as long as declared. -/
theorem stored_full {fd : FD} {b : Byte} (h : Completes fd b) :
    3 < (fd.stored b).hdrCnt.toNat ∧ (fd.stored b).payLen.toNat ≤ (fd.stored b).payCnt.toNat := by
  rcases hdrCnt_cases fd with hlt | h3 | h4
  · exact absurd h (not_completes_of_hdrCnt hlt)
  · rw [stored_hdrCnt, stored_payLen_of_lastHeader h3, (completes_iff_of_lastHeader h3).mp h]
    simp [h3]
  · have hcnt := (completes_iff_of_payload h4).mp h
    have hlen := fd.payLen.isLt
    rw [stored_hdrCnt, stored_payLen_of_payload h4, stored_payCnt, if_neg (by omega), if_neg (by omega)]
    exact ⟨h4, by bv_omega⟩

end Sys2Proof.Machine
end

section
/-!
PROOF. The invariant of the block (10_state.md R33): it holds at reset, and every operation and every step preserves it.
-/

namespace Sys2Proof.Machine

/-! The invariant of a decoder. -/

/-- With both counters at zero the invariant asks only for a canonical payload memory. -/
theorem FD.inv_of_cleared {fd : FD} (hhdr : fd.hdrCnt = 0) (hpay : fd.payCnt = 0)
    (hwf : fd.pay.wf (Config.payCap - 1) = true) : fd.Inv where
  hdrCntRange := by simp [hhdr]
  headerNoPayload _ := hpay
  payloadOpen h4 := by simp [hhdr] at h4
  disconnectedClear _ := ⟨hhdr, hpay⟩
  payWf := hwf
  payHeld j hj := by simp [hpay] at hj

/-- A decoder whose counters have been cleared, as a completion, an opening and a closing do (10_state.md R34). -/
theorem FD.inv_clearCounters {fd : FD} (hwf : fd.pay.wf (Config.payCap - 1) = true) (c : Bool) :
    FD.Inv { fd.clearCounters with conn := c } :=
  FD.inv_of_cleared rfl rfl hwf

theorem FD.inv_initial (seed : Nat) : (FD.initial seed).Inv :=
  FD.inv_of_cleared rfl rfl rfl

theorem FD.inv_afterReset (seed : Nat) : (FD.afterReset seed).Inv :=
  FD.inv_of_cleared rfl rfl rfl

/-- The payload counter is below the declared length on the payload path, so the store stays inside the buffer
(10_state.md R24). -/
theorem FD.Inv.payWf_stored {fd : FD} (h : fd.Inv) (b : Byte) :
    (fd.stored b).pay.wf (Config.payCap - 1) = true := by
  rw [stored_pay]
  split
  · exact h.payWf
  · next h4 =>
    have hrange := h.hdrCntRange
    obtain ⟨-, hlt⟩ := h.payloadOpen (by omega)
    have hlen := fd.payLen.isLt
    exact wf_write (by simp only [Config.payCap]; omega) h.payWf

/-- The payload memory holds the byte just stored and every earlier one. -/
theorem FD.Inv.payHeld_stored {fd : FD} (h : fd.Inv) (b : Byte) {j : Nat}
    (hj : j < (fd.stored b).payCnt.toNat) : ((fd.stored b).pay.read j).isSome = true := by
  rw [stored_payCnt] at hj
  rw [stored_pay]
  split at hj
  · next h4 =>
    rw [if_pos h4]
    exact h.payHeld j hj
  · next h4 =>
    rw [if_neg h4, read_write]
    split
    · rfl
    · exact h.payHeld j (by bv_omega)

/-- A byte that does not complete a frame leaves the payload buffer open. -/
theorem FD.Inv.payloadOpen_stored {fd : FD} {b : Byte} (h : fd.Inv) (hmore : ¬ Completes fd b)
    (h4 : (fd.stored b).hdrCnt.toNat = 4) :
    1 ≤ (fd.stored b).payLen.toNat ∧ (fd.stored b).payCnt.toNat < (fd.stored b).payLen.toNat := by
  have hrange := h.hdrCntRange
  rcases hdrCnt_cases fd with hlt | hlast | hfull
  · rw [stored_hdrCnt, if_pos (by omega)] at h4
    bv_omega
  · have hlen := mt (completes_iff_of_lastHeader hlast).mpr hmore
    have hcnt : fd.payCnt = 0 := h.headerNoPayload (by simp [hlast])
    rw [stored_payLen_of_lastHeader hlast, stored_payCnt, if_pos (by simp [hlast]), hcnt]
    exact ⟨by omega, Nat.pos_of_ne_zero hlen⟩
  · have hlen := mt (completes_iff_of_payload hfull).mpr hmore
    obtain ⟨hpos, hlt⟩ := h.payloadOpen (by omega)
    rw [stored_payLen_of_payload hfull, stored_payCnt, if_neg (by omega)]
    exact ⟨hpos, by bv_omega⟩

theorem FD.Inv.stored {fd : FD} {b : Byte} (h : fd.Inv) (hconn : fd.conn = true) (hmore : ¬ Completes fd b) :
    (fd.stored b).Inv where
  hdrCntRange := by
    have hrange := h.hdrCntRange
    rw [stored_hdrCnt]
    split <;> bv_omega
  headerNoPayload hlt := by
    have hheader : fd.hdrCnt.toNat < 4 := by
      by_contra h4
      rw [stored_hdrCnt, if_neg h4] at hlt
      exact h4 hlt
    rw [stored_payCnt, if_pos hheader]
    exact h.headerNoPayload hheader
  payloadOpen := h.payloadOpen_stored hmore
  disconnectedClear hdis := by simp [hconn] at hdis
  payWf := h.payWf_stored b
  payHeld _ := h.payHeld_stored b

/-! The invariant of the wire encoder. -/

/-- An admitted count gives a length that `out_len` holds exactly. -/
theorem bufferLen_toNat {n : Nat} (hn : n ≤ Config.pixMax) : (BitVec.ofNat 17 (bufferLen n)).toNat = 4 + 4 * n := by
  simp only [Config.pixMax] at hn
  simp only [BitVec.toNat_ofNat, bufferLen, Config.preLen, Config.recLen]
  omega

/-- After an encode the output buffer reads as the buffer sent, up to its length (43_wire_encoder.md R218). -/
theorem wireEncode_out_read {px : List Pixel} {s : State} {k : Nat} (hk : k < bufferLen px.length) :
    (wireEncode px s).we.out.read k = (wireBuffer s.cfg.colorOrder s.we px)[k]? := by
  rw [wireEncode_out, read_writeSeq, wireBuffer_length, if_pos (by omega), Nat.sub_zero]

theorem wireBuffer_preamble {order : ColorOrder} {we : WE} {px : List Pixel} {k : Nat} (hk : k < 4) :
    (wireBuffer order we px)[k]? = some 0 := by
  have hlen : preamble.length = 4 := rfl
  rw [wireBuffer, List.getElem?_append_left (by omega), preamble]
  exact List.getElem?_replicate_of_lt hk

theorem WE.inv_initial (seed : Nat) : (WE.initial seed).Inv where
  outLenForm := .inl rfl
  outPreamble h := by simp [WE.initial] at h
  outHeld k hk := by simp [WE.initial] at hk
  lutWf := rfl
  outWf := rfl

theorem WE.inv_afterReset (seed : Nat) : (WE.afterReset seed).Inv :=
  WE.inv_initial seed

theorem WE.Inv.wireEncode {px : List Pixel} {s : State} (h : s.we.Inv) (hn : px.length ≤ Config.pixMax) :
    (wireEncode px s).we.Inv where
  outLenForm := .inr ⟨px.length, hn, bufferLen_toNat hn⟩
  outPreamble _ k hk := by
    rw [wireEncode_out_read (by simp only [bufferLen, Config.preLen]; omega), wireBuffer_preamble hk]
  outHeld k hk := by
    have hk' : k < bufferLen px.length := hk.trans_le (Nat.mod_le ..)
    rw [wireEncode_out_read hk', List.getElem?_eq_getElem (by rwa [wireBuffer_length])]
    rfl
  lutWf := h.lutWf
  outWf := by
    refine wf_writeSeq ?_ h.outWf
    simp only [wireBuffer_length, bufferLen, Config.preLen, Config.recLen, Config.outCap, Config.pixMax] at *
    omega

/-- A table address is below 768 for the three channels (20_memory.md R68). -/
theorem lutAddr_lt {c : BitVec 2} (hc : c ≠ 3#2) (v : Byte) : lutAddr c v < Config.lutCap := by
  have hv := v.isLt
  have hc3 : c.toNat < 3 := by bv_omega
  rw [lutAddr_eq, Config.lutCap]
  omega

theorem WE.Inv.writeLut {we : WE} (h : we.Inv) {c : BitVec 2} (hc : c ≠ 3#2) (v val : Byte) :
    WE.Inv { we with lut := we.lut.write (lutAddr c v) val } :=
  { h with lutWf := wf_write (lutAddr_lt hc v) h.lutWf }

/-! The invariant of the block, update by update. -/

theorem State.Inv.setFd {s : State} (h : s.Inv) {fd : FD} (hfd : fd.Inv) (k : Nat) : (s.setFd k fd).Inv where
  decoders x hx := by
    rcases List.mem_or_eq_of_mem_set hx with hx | rfl
    · exact h.decoders x hx
    · exact hfd
  encoder := h.encoder

theorem State.Inv.emit {s : State} (h : s.Inv) (e : Event) : (s.emit e).Inv :=
  ⟨h.decoders, h.encoder⟩

theorem State.Inv.wireEncode {s : State} (h : s.Inv) {px : List Pixel} (hn : px.length ≤ Config.pixMax) :
    (wireEncode px s).Inv :=
  ⟨h.decoders, h.encoder.wireEncode hn⟩

theorem State.Inv.commandState {s : State} (h : s.Inv) (cfg : Config) (fd : FD) : (commandState cfg fd s).Inv := by
  unfold Machine.commandState
  dsimp only
  split
  · split
    · exact ((h.emit _).emit _).wireEncode (by simpa using pixelCount_le fd.payLen)
    · exact (h.emit _).emit _
  · exact h.emit _

theorem State.inv_initial (cfg : Config) (n : Nat) : (State.initial cfg n).Inv where
  decoders fd hfd := by
    obtain ⟨k, -, rfl⟩ := List.mem_map.mp hfd
    exact FD.inv_initial k
  encoder := WE.inv_initial n

theorem State.inv_resetBlock (s : State) : (resetBlock s).Inv where
  decoders fd hfd := by
    obtain ⟨n, rfl⟩ := mem_resetAllFds hfd
    exact FD.inv_afterReset n
  encoder := WE.inv_afterReset _

/-- Every operation preserves the invariant. -/
theorem State.Inv.exec {i : Instr} {s t : State} (h : s.Inv) (hexec : exec i s = .next t) : t.Inv := by
  cases execNext_iff.mp hexec with
  | timeout => exact h
  | opened hfd => exact h.setFd (FD.inv_clearCounters (h.decoders _ (fdAt_mem hfd)).payWf _) _
  | byteStored hfd hconn hmore => exact h.setFd ((h.decoders _ (fdAt_mem hfd)).stored hconn hmore) _
  | byteCompletes hfd =>
    exact (h.commandState ..).setFd (FD.inv_clearCounters ((h.decoders _ (fdAt_mem hfd)).payWf_stored _) _) _
  | closed hfd => exact (h.setFd (FD.inv_clearCounters (h.decoders _ (fdAt_mem hfd)).payWf _) _).emit _
  | tableWritten hc => exact ⟨h.decoders, h.encoder.writeLut hc ..⟩
  | encoded hn => exact h.wireEncode hn
  | decoderReset =>
    obtain ⟨hdecoders, hencoder⟩ := h.setFd (FD.inv_afterReset s.draws) _
    exact ⟨hdecoders, hencoder⟩
  | blockReset => exact State.inv_resetBlock s
  | pixelsIgnored => exact h.emit _
  | pixelsEncoded => exact (h.emit _).wireEncode (by simpa using pixelCount_le _)
  | commandIgnored => exact h

/-- Every step preserves the invariant: taking an input word touches no decoder and not the encoder. -/
theorem State.Inv.step {s t : State} (h : s.Inv) (hstep : step s = .next t) : t.Inv := by
  obtain ⟨-, rfl⟩ | ⟨w, rest, i, -, -, hexec⟩ := step_eq_next hstep
  · exact h
  · have htake : State.Inv { s with input := rest } := ⟨h.decoders, h.encoder⟩
    exact htake.exec hexec

/-- Settles O3: the reset state has the invariant, and each update an operation makes keeps it. -/
theorem invariantPreservedByEveryOperation : Obligations.InvariantPreservedByEveryOperation :=
  ⟨State.inv_initial, fun _ _ _ => State.Inv.exec, fun _ _ => State.Inv.step⟩

/-- Settles O2: every decoder starts with cleared counters, and the encoder with an empty buffer. -/
theorem invariantHoldsAtReset : Obligations.InvariantHoldsAtReset :=
  ⟨State.inv_initial _ 1, State.inv_initial⟩

/-- Settles O1, by the definition of the state right after reset. -/
theorem resetLeavesSpecifiedValues : Obligations.ResetLeavesSpecifiedValues := by
  refine ⟨fun cfg n => ⟨by simp [State.initial], fun fd hfd => ?_, rfl, fun _ => rfl, fun _ => rfl, rfl⟩, _, rfl⟩
  obtain ⟨k, -, rfl⟩ := List.mem_map.mp hfd
  exact ⟨rfl, rfl, rfl, fun _ => rfl⟩

end Sys2Proof.Machine
end

section
/-!
PROOF. Stale bytes never influence an event (10_state.md R34): two states that agree on everything but stale bytes take
every operation alike and still agree.
-/

namespace Sys2Proof.Machine

/-! Decoders that agree. -/

theorem FD.Agree.refl (fd : FD) : fd.Agree fd where
  conn := rfl
  hdrCnt := rfl
  payCnt := rfl
  hdrAddr _ := rfl
  hdrCmd _ := rfl
  hdrLenHi _ := rfl
  hdrLenLo _ := rfl
  pay _ _ := rfl

/-- With both counters at zero every header and payload byte is stale. -/
theorem FD.agree_of_cleared {a b : FD} (hconn : a.conn = b.conn) (ha : a.hdrCnt = 0) (hb : b.hdrCnt = 0)
    (hpa : a.payCnt = 0) (hpb : b.payCnt = 0) : a.Agree b where
  conn := hconn
  hdrCnt := ha.trans hb.symm
  payCnt := hpa.trans hpb.symm
  hdrAddr h := by simp [ha] at h
  hdrCmd h := by simp [ha] at h
  hdrLenHi h := by simp [ha] at h
  hdrLenLo h := by simp [ha] at h
  pay j hj := by simp [hpa] at hj

/-- Clearing the counters makes every byte stale (10_state.md R34). -/
theorem FD.agree_clearCounters (a b : FD) (c : Bool) :
    FD.Agree { a.clearCounters with conn := c } { b.clearCounters with conn := c } :=
  FD.agree_of_cleared rfl rfl rfl rfl rfl

theorem FD.Agree.clearCounters {a b : FD} (h : a.Agree b) : a.clearCounters.Agree b.clearCounters :=
  FD.agree_of_cleared h.conn rfl rfl rfl rfl

/-- A complete header leaves no length byte stale. -/
theorem FD.Agree.payLen {a b : FD} (h : a.Agree b) (hfull : 3 < a.hdrCnt.toNat) : a.payLen = b.payLen := by
  rw [FD.payLen, FD.payLen, h.hdrLenHi (by omega), h.hdrLenLo hfull]

/-- Storing the same byte in both decoders keeps the agreement: the byte is no longer stale, and is the same. -/
theorem FD.Agree.stored {a b : FD} (h : a.Agree b) (x : Byte) : (a.stored x).Agree (b.stored x) where
  conn := by simp [h.conn]
  hdrCnt := by simp [stored_hdrCnt, h.hdrCnt]
  payCnt := by simp [stored_payCnt, h.hdrCnt, h.payCnt]
  hdrAddr hcnt := by
    rw [stored_hdrAddr, stored_hdrAddr, ← h.hdrCnt]
    exact ite_congr rfl (fun _ => rfl) fun hne => h.hdrAddr (lt_hdrCnt_of_stored hcnt (by bv_omega))
  hdrCmd hcnt := by
    rw [stored_hdrCmd, stored_hdrCmd, ← h.hdrCnt]
    exact ite_congr rfl (fun _ => rfl) fun hne => h.hdrCmd (lt_hdrCnt_of_stored hcnt (by bv_omega))
  hdrLenHi hcnt := by
    rw [stored_hdrLenHi, stored_hdrLenHi, ← h.hdrCnt]
    exact ite_congr rfl (fun _ => rfl) fun hne => h.hdrLenHi (lt_hdrCnt_of_stored hcnt (by bv_omega))
  hdrLenLo hcnt := by
    rw [stored_hdrLenLo, stored_hdrLenLo, ← h.hdrCnt]
    exact ite_congr rfl (fun _ => rfl) fun hne => h.hdrLenLo (lt_hdrCnt_of_stored hcnt (by bv_omega))
  pay j hj := by
    rw [stored_payCnt] at hj
    rw [stored_pay, stored_pay, ← h.hdrCnt, ← h.payCnt]
    split at hj
    · next h4 =>
      rw [if_pos h4, if_pos h4]
      exact h.pay j hj
    · next h4 =>
      rw [if_neg h4, if_neg h4, read_write, read_write]
      split
      · rfl
      · exact h.pay j (by bv_omega)

/-- Whether a byte is the last of its frame does not depend on stale bytes. -/
theorem FD.Agree.completes_iff {a b : FD} (h : a.Agree b) (x : Byte) : Completes a x ↔ Completes b x := by
  have hcnt := h.hdrCnt
  rcases hdrCnt_cases a with hlt | hlast | hfull
  · exact iff_of_false (not_completes_of_hdrCnt hlt) (not_completes_of_hdrCnt (by rwa [← hcnt]))
  · rw [completes_iff_of_lastHeader hlast, completes_iff_of_lastHeader (hcnt ▸ hlast),
      h.hdrLenHi (by simp [hlast])]
  · rw [completes_iff_of_payload hfull, completes_iff_of_payload (hcnt ▸ hfull), h.payCnt, h.payLen hfull]

/-- When the last byte of a frame arrives its address and command are not stale. -/
theorem FD.Agree.addr_cmd_of_completes {a b : FD} {x : Byte} (h : a.Agree b) (hlast : Completes a x) :
    a.hdrAddr = b.hdrAddr ∧ a.hdrCmd = b.hdrCmd := by
  have hcnt : ¬ a.hdrCnt.toNat < 3 := fun hlt => not_completes_of_hdrCnt hlt hlast
  exact ⟨h.hdrAddr (by omega), h.hdrCmd (by omega)⟩

/-- Pixels made of held payload bytes only are the same in both decoders. -/
theorem FD.Agree.pixels {a b : FD} (h : a.Agree b)
    (hheld : ∀ j, j < a.payCnt.toNat → (a.pay.read j).isSome = true) {n : Nat} (hn : 3 * n ≤ a.payCnt.toNat) :
    a.pixels n = b.pixels n := by
  have hbyte : ∀ j, j < a.payCnt.toNat → a.payByte j = b.payByte j := by
    intro j hj
    obtain ⟨x, hx⟩ := Option.isSome_iff_exists.mp (hheld j hj)
    rw [FD.payByte, FD.payByte, ← h.pay j hj, hx, Option.getD_some, Option.getD_some]
  refine List.map_congr_left fun i hi => ?_
  have hi' : i < n := List.mem_range.mp hi
  rw [FD.pixelAt, FD.pixelAt, hbyte _ (by omega), hbyte _ (by omega), hbyte _ (by omega)]

/-! States that agree. -/

/-- The decoders of one source, in two states that agree, agree. -/
theorem State.Agree.fdAt {s s' : State} (h : s.Agree s') {k : Nat} {fd : FD} (hfd : s.fdAt k = some fd) :
    ∃ fd', s'.fdAt k = some fd' ∧ fd.Agree fd' := by
  obtain ⟨hlen, hget⟩ := List.forall₂_iff_get.mp h.decoders
  obtain ⟨hk, rfl⟩ := List.getElem?_eq_some_iff.mp hfd
  exact ⟨_, List.getElem?_eq_getElem (hlen ▸ hk), hget k hk (hlen ▸ hk)⟩

theorem forall₂_set {as bs : List FD} {a b : FD} (h : List.Forall₂ FD.Agree as bs) (hab : a.Agree b) (k : Nat) :
    List.Forall₂ FD.Agree (as.set k a) (bs.set k b) := by
  induction h generalizing k with
  | nil => exact .nil
  | cons hhead htail ih =>
    cases k with
    | zero => exact .cons hab htail
    | succ k => exact .cons hhead (ih k)

theorem forall₂_resetAllFds {as bs : List FD} (h : List.Forall₂ FD.Agree as bs) (n : Nat) :
    List.Forall₂ FD.Agree (resetAllFds as n) (resetAllFds bs n) := by
  induction h generalizing n with
  | nil => exact .nil
  | cons _ _ ih => exact .cons (.refl _) (ih (n + 1))

theorem State.Agree.setFd {s s' : State} (h : s.Agree s') {a b : FD} (hab : a.Agree b) (k : Nat) :
    (s.setFd k a).Agree (s'.setFd k b) :=
  { h with decoders := forall₂_set h.decoders hab k }

theorem State.Agree.emit {s s' : State} (h : s.Agree s') (e : Event) : (s.emit e).Agree (s'.emit e) :=
  { h with trace := by rw [emit_trace, emit_trace, h.trace] }

/-- The tables decide the buffer an encode sends. -/
theorem wireBuffer_congr {w w' : WE} (hlut : w.lut = w'.lut) (hseed : w.seed = w'.seed) (order : ColorOrder)
    (px : List Pixel) : wireBuffer order w px = wireBuffer order w' px := by
  have hgamma : w.gammaApply = w'.gammaApply := by
    funext c x
    rw [WE.gammaApply, WE.gammaApply, hlut, hseed]
  rw [wireBuffer_eq, wireBuffer_eq, hgamma]

/-- The tables decide the faults an encode records. -/
theorem pixelFaults_congr {w w' : WE} (hlut : w.lut = w'.lut) : w.pixelFaults = w'.pixelFaults := by
  funext p
  simp only [WE.pixelFaults, WE.lookupFault, hlut]

/-- An encode of the same pixels does the same in both states: it writes the whole buffer up to the new `out_len`. -/
theorem State.Agree.wireEncode {s s' : State} (h : s.Agree s') (px : List Pixel) :
    (wireEncode px s).Agree (wireEncode px s') := by
  have hbuf : wireBuffer s.cfg.colorOrder s.we px = wireBuffer s'.cfg.colorOrder s'.we px := by
    rw [h.cfg, wireBuffer_congr h.lut h.seed]
  exact
    { h with
      outLen := rfl
      out := fun k hk => by
        have hk' : k < bufferLen px.length := hk.trans_le (Nat.mod_le ..)
        rw [wireEncode_out_read hk', wireEncode_out_read hk', hbuf]
      trace := by rw [wireEncode_trace, wireEncode_trace, h.trace, hbuf]
      returns := by rw [wireEncode_returns, wireEncode_returns, h.returns, h.draws]
      faults := by rw [wireEncode_faults, wireEncode_faults, h.faults, pixelFaults_congr h.lut]
      draws := by rw [wireEncode_draws, wireEncode_draws, h.draws]
      writer := by rw [wireEncode_writer, wireEncode_writer, h.writer] }

theorem State.Agree.commandState {s s' : State} (h : s.Agree s') (cfg : Config) (fd : FD) :
    (commandState cfg fd s).Agree (commandState cfg fd s') := by
  unfold Machine.commandState
  dsimp only
  split
  · split
    · exact ((h.emit _).emit _).wireEncode _
    · exact (h.emit _).emit _
  · exact h.emit _

/-- A completion reads of its decoder the header and the pixels of the payload, and nothing else. -/
theorem commandState_congr {a b : FD} (haddr : a.hdrAddr = b.hdrAddr) (hcmd : a.hdrCmd = b.hdrCmd)
    (hlen : a.payLen = b.payLen) (hpx : a.pixels (pixelCount a.payLen) = b.pixels (pixelCount a.payLen))
    (cfg : Config) (s : State) : commandState cfg a s = commandState cfg b s := by
  unfold commandState
  rw [← haddr, ← hcmd, ← hlen, hpx]

/-- The last byte of a frame finds no stale byte among those its completion reads. -/
theorem FD.Agree.commandState_stored {a b : FD} {x : Byte} (h : a.Agree b) (ha : a.Inv) (hlast : Completes a x)
    (cfg : Config) (s : State) : commandState cfg (a.stored x) s = commandState cfg (b.stored x) s := by
  have hst := h.stored x
  obtain ⟨hhdr, hpay⟩ := stored_full hlast
  refine commandState_congr (hst.hdrAddr (by omega)) (hst.hdrCmd (by omega)) (hst.payLen hhdr) ?_ cfg s
  exact hst.pixels (fun _ => ha.payHeld_stored x) ((Nat.mul_div_le _ 3).trans hpay)

theorem State.Agree.resetBlock {s s' : State} (h : s.Agree s') : (resetBlock s).Agree (resetBlock s') := by
  have hlen : s.fds.length = s'.fds.length := h.decoders.length_eq
  exact
    { h with
      decoders := by
        rw [Machine.resetBlock, Machine.resetBlock, ← h.draws]
        exact forall₂_resetAllFds h.decoders s.draws
      lut := rfl
      seed := by simp only [Machine.resetBlock, WE.afterReset, State.nSources, h.draws, hlen]
      outLen := rfl
      out := fun _ _ => rfl
      draws := by simp only [Machine.resetBlock, State.nSources, h.draws, hlen] }

theorem State.Agree.writeLut {s s' : State} (h : s.Agree s') (a : Nat) (x : Byte) :
    State.Agree { s with we := { s.we with lut := s.we.lut.write a x } }
      { s' with we := { s'.we with lut := s'.we.lut.write a x } } :=
  { h with lut := congrArg (Mem.write · a x) h.lut }

/-- Every operation but the bare SET_PIXELS takes states that agree to states that agree. -/
theorem State.Agree.execNext {i : Instr} {s s' t : State} (hinv : s.Inv) (h : s.Agree s')
    (hbare : ∀ src addr len, i ≠ .setPixels src addr len) (hexec : ExecNext i s t) :
    ∃ t', ExecNext i s' t' ∧ t.Agree t' := by
  cases hexec with
  | timeout hfd =>
    obtain ⟨fd', hfd', -⟩ := h.fdAt hfd
    exact ⟨_, .timeout hfd', h⟩
  | opened hfd hconn =>
    obtain ⟨fd', hfd', hab⟩ := h.fdAt hfd
    exact ⟨_, .opened hfd' (hab.conn ▸ hconn), h.setFd (FD.agree_clearCounters ..) _⟩
  | @byteStored src b _ fd hfd hconn hmore =>
    obtain ⟨fd', hfd', hab⟩ := h.fdAt hfd
    exact ⟨_, .byteStored hfd' (hab.conn ▸ hconn) (mt (hab.completes_iff b).mpr hmore),
      h.setFd (hab.stored b) _⟩
  | @byteCompletes src b _ fd hfd hconn hlast hwriter =>
    obtain ⟨fd', hfd', hab⟩ := h.fdAt hfd
    obtain ⟨haddr, hcmd⟩ := hab.addr_cmd_of_completes hlast
    refine ⟨_, .byteCompletes hfd' (hab.conn ▸ hconn) ((hab.completes_iff b).mp hlast) ?_, ?_⟩
    · rwa [← haddr, ← hcmd, ← h.cfg, ← h.writer]
    · rw [← h.cfg, ← hab.commandState_stored (hinv.decoders fd (fdAt_mem hfd)) hlast]
      exact (h.commandState ..).setFd (hab.stored b).clearCounters src
  | closed hfd =>
    obtain ⟨fd', hfd', -⟩ := h.fdAt hfd
    exact ⟨_, .closed hfd', (h.setFd (FD.agree_clearCounters ..) _).emit _⟩
  | tableWritten hc => exact ⟨_, .tableWritten hc, h.writeLut ..⟩
  | encoded hn hwriter => exact ⟨_, .encoded hn (h.writer ▸ hwriter), h.wireEncode _⟩
  | decoderReset hfd =>
    obtain ⟨fd', hfd', -⟩ := h.fdAt hfd
    refine ⟨_, .decoderReset hfd', ?_⟩
    rw [← h.draws]
    exact { h.setFd (.refl _) _ with draws := rfl }
  | blockReset => exact ⟨_, .blockReset, h.resetBlock⟩
  | pixelsIgnored => exact absurd rfl (hbare _ _ _)
  | pixelsEncoded => exact absurd rfl (hbare _ _ _)
  | commandIgnored hfd =>
    obtain ⟨fd', hfd', -⟩ := h.fdAt hfd
    exact ⟨_, .commandIgnored hfd', h⟩

/-- Settles O27, from the agreement kept by each next state an operation has. -/
theorem staleBytesNeverInfluenceEvents : Obligations.StaleBytesNeverInfluenceEvents := by
  intro i s s' t hinv _ hagree hbare hexec
  obtain ⟨t', hexec', ht⟩ := hagree.execNext hinv hbare (execNext_iff.mp hexec)
  exact ⟨t', execNext_iff.mpr hexec', ht⟩

end Sys2Proof.Machine
end

section
/-!
PROOF. What operations leave unchanged (10_state.md R36), and how FD_BYTE moves `want` (10_state.md R26).
-/

namespace Sys2Proof.Machine

/-! Every operation. -/

theorem ExecNext.cfg_input {i : Instr} {s t : State} (h : ExecNext i s t) : t.cfg = s.cfg ∧ t.input = s.input := by
  cases h with
  | byteCompletes => simp
  | timeout | opened | byteStored | closed | tableWritten | encoded | decoderReset | blockReset | pixelsIgnored
  | pixelsEncoded | commandIgnored => exact ⟨rfl, rfl⟩

theorem ExecNext.fds_length {i : Instr} {s t : State} (h : ExecNext i s t) : t.fds.length = s.fds.length := by
  cases h with
  | blockReset => exact resetAllFds_length ..
  | opened | byteStored | closed | decoderReset => exact List.length_set
  | byteCompletes => simp
  | timeout | tableWritten | encoded | pixelsIgnored | pixelsEncoded | commandIgnored => rfl

/-- An operation leaves every decoder it does not name as it was. -/
theorem ExecNext.fds_other {i : Instr} {s t : State} (h : ExecNext i s t) {k : Nat} (hk : ¬ touches i k) :
    t.fds[k]? = s.fds[k]? := by
  cases h with
  | blockReset => exact absurd trivial hk
  | opened | byteStored | closed | decoderReset => exact List.getElem?_set_ne (Ne.symm hk)
  | byteCompletes =>
    rw [setFd_fds, commandState_fds]
    exact List.getElem?_set_ne (Ne.symm hk)
  | timeout | tableWritten | encoded | pixelsIgnored | pixelsEncoded | commandIgnored => rfl

/-- Settles O44, from the frame of each next state an operation has. -/
theorem operationChangesOnlyItsSource : Obligations.OperationChangesOnlyItsSource := by
  intro i s t hexec
  have h := execNext_iff.mp hexec
  obtain ⟨hcfg, hinput⟩ := h.cfg_input
  exact ⟨hcfg, h.fds_length, hinput, fun _ => h.fds_other⟩

/-! The operations of the encoder. -/

/-- An encode leaves every output cell beyond the buffer it sends. -/
theorem wireEncode_out_beyond {px : List Pixel} {s : State} {k : Nat} (hk : bufferLen px.length ≤ k) :
    (wireEncode px s).we.out.read k = s.we.out.read k := by
  rw [wireEncode_out, read_writeSeq, wireBuffer_length, if_neg (by omega)]

/-- Settles O47: LUT_WRITE is one store in the tables, WE_ENCODE writes `out` below `4 + 4*n` only. -/
theorem encoderOperationsFrame : Obligations.EncoderOperationsFrame := by
  constructor
  · intro s t c v val hexec
    cases execNext_iff.mp hexec with
    | tableWritten => exact ⟨rfl, rfl, rfl, rfl, rfl, rfl, rfl, rfl, rfl, fun _ => rfl⟩
  · intro s t px hexec
    cases execNext_iff.mp hexec with
    | encoded => exact ⟨rfl, rfl, rfl, fun _ => rfl, fun _ => wireEncode_out_beyond⟩

/-! FD_BYTE. -/

/-- FD_BYTE leaves its decoder as the store of the byte leaves it, with the counters cleared if the byte was the last. -/
theorem ExecNext.fdByte_fds {src : Nat} {b : Byte} {s t : State} {fd : FD} (h : ExecNext (.fdByte src b) s t)
    (hfd : s.fdAt src = some fd) :
    (Completes fd b ∧ t.fds = s.fds.set src (fd.stored b).clearCounters) ∨
      (¬ Completes fd b ∧ t.fds = s.fds.set src (fd.stored b)) := by
  cases h with
  | byteStored hfd' _ hmore =>
    obtain rfl := Option.some.inj (hfd.symm.trans hfd')
    exact .inr ⟨hmore, rfl⟩
  | byteCompletes hfd' _ hlast =>
    obtain rfl := Option.some.inj (hfd.symm.trans hfd')
    exact .inl ⟨hlast, by rw [setFd_fds, commandState_fds]⟩

/-- What a store leaves of a decoder, counters aside. -/
structure FD.StoreFrame (fd fd' : FD) : Prop where
  conn : fd'.conn = fd.conn
  hdrAddr : fd.hdrCnt ≠ 0 → fd'.hdrAddr = fd.hdrAddr
  hdrCmd : fd.hdrCnt ≠ 1 → fd'.hdrCmd = fd.hdrCmd
  hdrLenHi : fd.hdrCnt ≠ 2 → fd'.hdrLenHi = fd.hdrLenHi
  hdrLenLo : fd.hdrCnt ≠ 3 → fd'.hdrLenLo = fd.hdrLenLo
  payHeader : fd.hdrCnt.toNat < 4 → ∀ a, fd'.pay.read a = fd.pay.read a
  payOther : ∀ a, a ≠ fd.payCnt.toNat → fd'.pay.read a = fd.pay.read a

theorem storeFrame_stored (fd : FD) (b : Byte) : fd.StoreFrame (fd.stored b) where
  conn := stored_conn fd b
  hdrAddr h := by rw [stored_hdrAddr, if_neg h]
  hdrCmd h := by rw [stored_hdrCmd, if_neg h]
  hdrLenHi h := by rw [stored_hdrLenHi, if_neg h]
  hdrLenLo h := by rw [stored_hdrLenLo, if_neg h]
  payHeader h a := by rw [stored_pay, if_pos h]
  payOther a h := by
    rw [stored_pay]
    split
    · rfl
    · exact read_write_other b h

/-- Clearing the counters changes nothing else. -/
theorem FD.StoreFrame.clearCounters {fd fd' : FD} (h : fd.StoreFrame fd') : fd.StoreFrame fd'.clearCounters :=
  ⟨h.conn, h.hdrAddr, h.hdrCmd, h.hdrLenHi, h.hdrLenLo, h.payHeader, h.payOther⟩

/-- Without an accepted command-1 frame to dispatch, FD_BYTE makes no encode. -/
theorem ExecNext.fdByte_noEncode {src : Nat} {b : Byte} {s t : State} {fd : FD} (h : ExecNext (.fdByte src b) s t)
    (hfd : s.fdAt src = some fd)
    (hquiet : ¬ (Completes fd b ∧ fd.hdrCmd = Config.cmdSetPixels ∧ s.cfg.accepts fd.hdrAddr = true)) :
    NoEncode s t := by
  obtain ⟨hcfg, hinput⟩ := h.cfg_input
  cases h with
  | byteStored => exact ⟨rfl, rfl, rfl, rfl, rfl, hcfg, hinput⟩
  | byteCompletes hfd' _ hlast =>
    obtain rfl := Option.some.inj (hfd.symm.trans hfd')
    obtain ⟨haddr, hcmd⟩ := stored_fields hlast
    obtain ⟨hwe, hreturns, hfaults, hdraws, hwriter⟩ := commandState_quiet s.cfg (fd.stored b) s
      (by rw [haddr, hcmd]; exact fun hcommand => hquiet ⟨hlast, hcommand⟩)
    exact ⟨hwe, hreturns, hfaults, hdraws, hwriter, hcfg, hinput⟩

theorem ExecNext.fdByte_lut {src : Nat} {b : Byte} {s t : State} (h : ExecNext (.fdByte src b) s t) :
    t.we.lut = s.we.lut := by
  cases h with
  | byteStored => rfl
  | byteCompletes => rw [setFd_we, commandState_lut]

/-- A byte that does not complete a frame emits nothing. -/
theorem ExecNext.fdByte_trace {src : Nat} {b : Byte} {s t : State} {fd : FD} (h : ExecNext (.fdByte src b) s t)
    (hfd : s.fdAt src = some fd) (hmore : ¬ Completes fd b) : t.trace = s.trace := by
  cases h with
  | byteStored => rfl
  | byteCompletes hfd' _ hlast =>
    obtain rfl := Option.some.inj (hfd.symm.trans hfd')
    exact absurd hlast hmore

/-- Settles O22: the decoder is framed by the byte's store, the rest by the completion's command, if any. -/
theorem fdByteFrame : Obligations.FdByteFrame := by
  intro s t src fd b hfd hexec
  have h := execNext_iff.mp hexec
  obtain ⟨hcfg, hinput⟩ := h.cfg_input
  have hdecoder : ∃ fd', t.fds = s.fds.set src fd' ∧ fd.StoreFrame fd' := by
    obtain ⟨-, hfds⟩ | ⟨-, hfds⟩ := h.fdByte_fds hfd
    · exact ⟨_, hfds, (storeFrame_stored fd b).clearCounters⟩
    · exact ⟨_, hfds, storeFrame_stored fd b⟩
  obtain ⟨fd', hfds, hconn, haddr, hcmd, hhi, hlo, hheader, hother⟩ := hdecoder
  exact ⟨hcfg, hinput, h.fdByte_lut, ⟨fd', hfds, hconn, haddr, hcmd, hhi, hlo, hheader, hother⟩,
    h.fdByte_trace hfd, h.fdByte_noEncode hfd⟩

/-! `want`, the bytes still missing. -/

theorem want_of_header {fd : FD} (hconn : fd.conn = true) (h : fd.hdrCnt.toNat < 4) :
    fd.want = 4 - fd.hdrCnt.toNat := by
  rw [FD.want, if_neg (by simp [hconn]), if_pos h]

theorem want_of_payload {fd : FD} (hconn : fd.conn = true) (h : 4 ≤ fd.hdrCnt.toNat) :
    fd.want = fd.payLen.toNat - fd.payCnt.toNat := by
  rw [FD.want, if_neg (by simp [hconn]), if_neg (by omega)]

/-- After a completion the four header bytes of the next frame are missing. -/
theorem want_clearCounters {fd : FD} (hconn : fd.conn = true) : fd.clearCounters.want = 4 :=
  want_of_header hconn (by simp)

theorem FD.Inv.payCnt_lt {fd : FD} (h : fd.Inv) (h4 : 4 ≤ fd.hdrCnt.toNat) : fd.payCnt.toNat < fd.payLen.toNat :=
  (h.payloadOpen (Nat.le_antisymm h.hdrCntRange h4)).2

theorem FD.Inv.one_le_want {fd : FD} (h : fd.Inv) (hconn : fd.conn = true) : 1 ≤ fd.want := by
  rcases Nat.lt_or_ge fd.hdrCnt.toNat 4 with hlt | h4
  · rw [want_of_header hconn hlt]
    omega
  · have hcnt := h.payCnt_lt h4
    rw [want_of_payload hconn h4]
    omega

/-- A frame is complete when one byte was missing, and that byte does not declare a payload still to come. -/
theorem FD.Inv.completes_iff_want {fd : FD} (h : fd.Inv) (hconn : fd.conn = true) (b : Byte) :
    Completes fd b ↔ fd.want = 1 ∧ (fd.hdrCnt = 3 → fd.hdrLenHi.toNat * 256 + b.toNat = 0) := by
  rcases hdrCnt_cases fd with hlt | hlast | h4
  · rw [want_of_header hconn (by omega)]
    exact iff_of_false (not_completes_of_hdrCnt hlt) (by omega)
  · rw [want_of_header hconn (by simp [hlast]), completes_iff_of_lastHeader hlast]
    simp [hlast]
  · have hcnt := h.payCnt_lt h4
    have h3 : fd.hdrCnt ≠ 3 := by bv_omega
    rw [want_of_payload hconn h4, completes_iff_of_payload h4]
    simp only [h3, false_implies, and_true]
    omega

/-- A byte that is not the last of its buffer is one byte less to come. -/
theorem want_stored_of_lt {fd : FD} (hconn : fd.conn = true) (hwant : 1 < fd.want) (b : Byte) :
    (fd.stored b).want = fd.want - 1 := by
  have hconn' : (fd.stored b).conn = true := by rw [stored_conn, hconn]
  rcases Nat.lt_or_ge fd.hdrCnt.toNat 4 with hlt | h4
  · rw [want_of_header hconn hlt] at hwant ⊢
    have hcnt : (fd.stored b).hdrCnt.toNat = fd.hdrCnt.toNat + 1 := by
      rw [stored_hdrCnt, if_pos hlt]
      bv_omega
    rw [want_of_header hconn' (by omega), hcnt, Nat.sub_sub]
  · rw [want_of_payload hconn h4] at hwant ⊢
    have hlen := fd.payLen.isLt
    have hpay : (fd.stored b).payCnt.toNat = fd.payCnt.toNat + 1 := by
      rw [stored_payCnt, if_neg (by omega)]
      bv_omega
    rw [want_of_payload hconn' (by rw [stored_hdrCnt, if_neg (by omega)]; exact h4), stored_payLen_of_payload h4,
      hpay, Nat.sub_sub]

/-- After the last header byte the declared length is missing. -/
theorem FD.Inv.want_stored_of_lastHeader {fd : FD} (h : fd.Inv) (hconn : fd.conn = true) (hlast : fd.hdrCnt = 3)
    (b : Byte) : (fd.stored b).want = fd.hdrLenHi.toNat * 256 + b.toNat := by
  have hheader : fd.hdrCnt.toNat < 4 := by simp [hlast]
  have hpay : (fd.stored b).payCnt = 0 := by rw [stored_payCnt, if_pos hheader, h.headerNoPayload hheader]
  have hcnt : (fd.stored b).hdrCnt = 4 := by rw [stored_hdrCnt, if_pos hheader, hlast]; rfl
  rw [want_of_payload (by rw [stored_conn, hconn]) (by simp [hcnt]), stored_payLen_of_lastHeader hlast, hpay]
  rfl

/-- Settles O23: a byte completes its frame, or is stored and counted. -/
theorem wantCountsMissingBytes : Obligations.WantCountsMissingBytes := by
  intro s t src fd fd' b hinv hfd hconn hexec hfd'
  have hsrc : src < s.fds.length := fdAt_lt hfd
  refine ⟨hinv.one_le_want hconn, ?_⟩
  obtain ⟨hlast, hfds⟩ | ⟨hmore, hfds⟩ := (execNext_iff.mp hexec).fdByte_fds hfd
  · rw [hfds, List.getElem?_set_self hsrc] at hfd'
    obtain rfl := Option.some.inj hfd'
    obtain ⟨hone, hzero⟩ := (hinv.completes_iff_want hconn b).mp hlast
    exact ⟨fun hwant => by omega, fun _ h3 hlen => absurd (hzero h3) hlen,
      fun _ _ => want_clearCounters (by rw [stored_conn, hconn])⟩
  · rw [hfds, List.getElem?_set_self hsrc] at hfd'
    obtain rfl := Option.some.inj hfd'
    exact ⟨fun hwant => want_stored_of_lt hconn hwant b, fun _ h3 _ => hinv.want_stored_of_lastHeader hconn h3 b,
      fun hone hzero => absurd ((hinv.completes_iff_want hconn b).mpr ⟨hone, hzero⟩) hmore⟩

end Sys2Proof.Machine
end

section
/-!
PROOF. Operation words and header words (30_encoding.md R91, R101, R102): a word decodes exactly when it is laid out as one
of the formats of R101, and decoding inverts the encoder in both directions.
-/

namespace Sys2Proof

/-! Fields of a word. -/

/-- A bit string is the bits of the number it denotes. -/
theorem toBits_ofBits (bs : List Bool) : toBits bs.length (ofBits bs) = bs := by
  induction bs with
  | nil => rfl
  | cons b bs ih =>
    have hnum : ofBits (b :: bs) = b.toNat * 2 ^ bs.length + ofBits bs := by
      rw [← List.singleton_append, ofBits_append]
      simp [ofBits]
    have hbit : toBits 1 b.toNat = [b] := by cases b <;> rfl
    rw [hnum, List.length_cons, Nat.add_comm, ← toBits_append _ _ _ _ (ofBits_lt bs), ih, hbit]
    rfl

/-- Taking a field off a word is the converse of writing its bits in front of the rest. -/
theorem takeField_eq_ok {w : Nat} {bs rest : List Bool} {x : BitVec w} :
    takeField w bs = .ok (x, rest) ↔ bs = toBits w x.toNat ++ rest := by
  constructor
  · intro h
    unfold takeField at h
    split at h
    · cases h
    · next hlen =>
      cases h
      have hw : (bs.take w).length = w := by simp; omega
      have hlt := ofBits_lt (bs.take w)
      have hbits := toBits_ofBits (bs.take w)
      rw [hw] at hlt hbits
      rw [BitVec.toNat_ofNat, Nat.mod_eq_of_lt hlt, hbits, List.take_append_drop]
  · rintro rfl
    rw [takeField_toBits, BitVec.ofNat_toNat, BitVec.setWidth_eq]

theorem wordEnd_eq_ok {α : Type} {a x : α} {bs : List Bool} : wordEnd a bs = .ok x ↔ bs = [] ∧ a = x := by
  cases bs <;> simp [wordEnd]

/-- The bits of a concatenation are the bits of its parts. -/
theorem toBits_bitVec_append {v w : Nat} (x : BitVec v) (y : BitVec w) :
    toBits (v + w) (x ++ y).toNat = toBits v x.toNat ++ toBits w y.toNat := by
  rw [BitVec.toNat_append, ← Nat.shiftLeft_add_eq_or_of_lt y.isLt, Nat.shiftLeft_eq, toBits_append _ _ _ _ y.isLt]

section threeFields
variable {w : Nat} (x : BitVec w) (y z : Byte)

@[simp] theorem extractLsb'_upper : (x ++ y ++ z).extractLsb' 16 w = x := by
  rw [BitVec.extractLsb'_append_eq_of_le (by decide)]
  exact BitVec.extractLsb'_append_eq_left

@[simp] theorem extractLsb'_middle : (x ++ y ++ z).extractLsb' 8 8 = y := by
  rw [BitVec.extractLsb'_append_eq_of_le (by decide)]
  exact BitVec.extractLsb'_append_eq_right

@[simp] theorem extractLsb'_lower : (x ++ y ++ z).extractLsb' 0 8 = z :=
  BitVec.extractLsb'_append_eq_right

end threeFields

/-- A word of `w + 16` bits is a field of `w` bits and two bytes. -/
theorem exists_eq_append_bytes {w : Nat} (x : BitVec (w + 8 + 8)) :
    ∃ (a : BitVec w) (b c : Byte), x = a ++ b ++ c := by
  refine ⟨x.extractLsb' 16 w, x.extractLsb' 8 8, x.extractLsb' 0 8, ?_⟩
  have hupper : x.extractLsb' 16 w ++ x.extractLsb' 8 8 = x.extractLsb' 8 (w + 8) :=
    BitVec.extractLsb'_append_extractLsb'_eq_extractLsb' rfl
  have hall : x.extractLsb' 8 (w + 8) ++ x.extractLsb' 0 8 = x.extractLsb' 0 (w + 8 + 8) :=
    BitVec.extractLsb'_append_extractLsb'_eq_extractLsb' rfl
  rw [hupper, hall, BitVec.extractLsb'_eq_self]

/-! The formats of operation words (30_encoding.md R101). -/

theorem decodeByteOp_eq_ok {src : Nat} {bs : List Bool} {i : Instr} :
    decodeByteOp src bs = .ok i ↔ ∃ b : Byte, bs = toBits 8 b.toNat ∧ i = .fdByte src b := by
  unfold decodeByteOp
  constructor
  · intro h
    split at h
    · cases h
    · next b rest hb =>
      obtain ⟨rfl, rfl⟩ := wordEnd_eq_ok.mp h
      exact ⟨b, by simpa using takeField_eq_ok.mp hb, rfl⟩
  · rintro ⟨b, rfl, rfl⟩
    rw [takeField_eq_ok.mpr (List.append_nil _).symm]
    rfl

theorem decodeLutOp_eq_ok {bs : List Bool} {i : Instr} :
    decodeLutOp bs = .ok i ↔ ∃ (c : BitVec 2) (v val : Byte),
      bs = toBits 2 c.toNat ++ toBits 8 v.toNat ++ toBits 8 val.toNat ∧ i = .lutWrite c v val := by
  unfold decodeLutOp
  constructor
  · intro h
    split at h
    · cases h
    · next x rest hx =>
      obtain ⟨rfl, rfl⟩ := wordEnd_eq_ok.mp h
      obtain ⟨c, v, val, rfl⟩ := exists_eq_append_bytes (w := 2) x
      refine ⟨c, v, val, ?_, by simp⟩
      rw [takeField_eq_ok.mp hx, List.append_nil, ← toBits_bitVec_append, ← toBits_bitVec_append]
  · rintro ⟨c, v, val, rfl, rfl⟩
    rw [← toBits_bitVec_append, ← toBits_bitVec_append, takeField_eq_ok.mpr (List.append_nil _).symm]
    simp [wordEnd]

theorem toBits_pixel (p : Pixel) : toBits 24 (p.r ++ p.g ++ p.b).toNat = pixelBits p := by
  rw [pixelBits, ← toBits_bitVec_append, ← toBits_bitVec_append]

theorem takePixels_eq_ok {n : Nat} {bs rest : List Bool} {px : List Pixel} :
    takePixels n bs = .ok (px, rest) ↔ px.length = n ∧ bs = px.flatMap pixelBits ++ rest := by
  induction n generalizing bs px with
  | zero =>
    rw [List.length_eq_zero_iff]
    constructor
    · intro h
      cases h
      exact ⟨rfl, rfl⟩
    · rintro ⟨rfl, rfl⟩
      rfl
  | succ n ih =>
    unfold takePixels
    constructor
    · intro h
      split at h
      · cases h
      · next x more hx =>
        split at h
        · cases h
        · next tail rest' htail =>
          cases h
          obtain ⟨rfl, rfl⟩ := ih.mp htail
          obtain ⟨r, g, b, rfl⟩ := exists_eq_append_bytes (w := 8) x
          refine ⟨by simp, ?_⟩
          rw [takeField_eq_ok.mp hx, toBits_pixel ⟨r, g, b⟩]
          simp
    · rintro ⟨hlen, rfl⟩
      obtain ⟨p, tail, rfl⟩ := List.exists_cons_of_length_eq_add_one hlen
      have hp : takeField 24 ((p :: tail).flatMap pixelBits ++ rest) =
          .ok (p.r ++ p.g ++ p.b, tail.flatMap pixelBits ++ rest) :=
        takeField_eq_ok.mpr (by rw [toBits_pixel]; simp)
      have htail := ih.mpr ⟨by simpa using hlen, rfl⟩
      rw [hp]
      simp [htail]

theorem decodeEncodeOp_eq_ok {bs : List Bool} {i : Instr} :
    decodeEncodeOp bs = .ok i ↔ ∃ px : List Pixel, px.length < 2 ^ 15 ∧
      bs = toBits 15 px.length ++ px.flatMap pixelBits ∧ i = .weEncode px := by
  unfold decodeEncodeOp
  constructor
  · intro h
    split at h
    · cases h
    · next n rest hn =>
      split at h
      · cases h
      · next px rest' hpx =>
        obtain ⟨rfl, rfl⟩ := wordEnd_eq_ok.mp h
        obtain ⟨hlen, rfl⟩ := takePixels_eq_ok.mp hpx
        exact ⟨px, hlen ▸ n.isLt, by rw [takeField_eq_ok.mp hn, hlen, List.append_nil], rfl⟩
  · rintro ⟨px, hlen, rfl, rfl⟩
    have hpx : takePixels px.length (px.flatMap pixelBits) = .ok (px, []) :=
      takePixels_eq_ok.mpr ⟨rfl, (List.append_nil _).symm⟩
    rw [takeField_toBits]
    simp only [BitVec.toNat_ofNat, Nat.mod_eq_of_lt hlen, hpx]
    rfl

/-! Operation words. -/

/-- The word `w` is laid out as 30_encoding.md R101 lays out the operation `i` (`decode_eq_ok_iff`). -/
inductive LaidOut : OpWord → Instr → Prop where
  | timeout {src} : LaidOut ⟨src, toBits 4 0x0⟩ (.fdTimeout (src.getD 0))
  | opened {src} : LaidOut ⟨src, toBits 4 0x1⟩ (.fdOpen (src.getD 0))
  | byte {src} {b : Byte} : LaidOut ⟨src, toBits 4 0x2 ++ toBits 8 b.toNat⟩ (.fdByte (src.getD 0) b)
  | closed {src} : LaidOut ⟨src, toBits 4 0x3⟩ (.fdClose (src.getD 0))
  | tableWrite {src} {c : BitVec 2} {v val : Byte} :
      LaidOut ⟨src, toBits 4 0x4 ++ (toBits 2 c.toNat ++ toBits 8 v.toNat ++ toBits 8 val.toNat)⟩
        (.lutWrite c v val)
  | encoding {src} {px : List Pixel} (hlen : px.length < 2 ^ 15) :
      LaidOut ⟨src, toBits 4 0x5 ++ (toBits 15 px.length ++ px.flatMap pixelBits)⟩ (.weEncode px)
  | reset {src} : LaidOut ⟨src, toBits 4 0xF⟩ (.reset src)

/-- What follows a tag, decoded in the format the tag selects (30_encoding.md R101). -/
def decodeTagged (src : Option Nat) (tag : BitVec 4) (rest : List Bool) : Except DecodeError Instr :=
  if tag = 0x0#4 then wordEnd (.fdTimeout (src.getD 0)) rest
  else if tag = 0x1#4 then wordEnd (.fdOpen (src.getD 0)) rest
  else if tag = 0x2#4 then decodeByteOp (src.getD 0) rest
  else if tag = 0x3#4 then wordEnd (.fdClose (src.getD 0)) rest
  else if tag = 0x4#4 then decodeLutOp rest
  else if tag = 0x5#4 then decodeEncodeOp rest
  else if tag = 0xF#4 then wordEnd (.reset src) rest
  else .error (.reservedTag tag)

theorem decode_tag_append (src : Option Nat) (tag : BitVec 4) (rest : List Bool) :
    decode ⟨src, toBits 4 tag.toNat ++ rest⟩ = decodeTagged src tag rest := by
  simp only [decode, takeField_toBits, BitVec.ofNat_toNat, BitVec.setWidth_eq]
  rfl

/-- A word that decodes has a tag. -/
theorem exists_tag_of_decode {w : OpWord} {i : Instr} (h : decode w = .ok i) :
    ∃ (tag : BitVec 4) (rest : List Bool),
      w.bits = toBits 4 tag.toNat ++ rest ∧ decodeTagged w.src tag rest = .ok i := by
  cases htag : takeField 4 w.bits with
  | error e => simp [decode, htag] at h
  | ok field =>
    obtain ⟨tag, rest⟩ := field
    have hbits := takeField_eq_ok.mp htag
    refine ⟨tag, rest, hbits, ?_⟩
    rw [← decode_tag_append, ← hbits]
    exact h

theorem laidOut_of_decodeTagged {src : Option Nat} {tag : BitVec 4} {rest : List Bool} {i : Instr}
    (h : decodeTagged src tag rest = .ok i) : LaidOut ⟨src, toBits 4 tag.toNat ++ rest⟩ i := by
  unfold decodeTagged at h
  split_ifs at h with h0 h1 h2 h3 h4 h5 hF
  · obtain ⟨rfl, rfl⟩ := wordEnd_eq_ok.mp h
    exact h0 ▸ .timeout
  · obtain ⟨rfl, rfl⟩ := wordEnd_eq_ok.mp h
    exact h1 ▸ .opened
  · obtain ⟨b, rfl, rfl⟩ := decodeByteOp_eq_ok.mp h
    exact h2 ▸ .byte
  · obtain ⟨rfl, rfl⟩ := wordEnd_eq_ok.mp h
    exact h3 ▸ .closed
  · obtain ⟨c, v, val, rfl, rfl⟩ := decodeLutOp_eq_ok.mp h
    exact h4 ▸ .tableWrite
  · obtain ⟨px, hlen, rfl, rfl⟩ := decodeEncodeOp_eq_ok.mp h
    exact h5 ▸ .encoding hlen
  · obtain ⟨rfl, rfl⟩ := wordEnd_eq_ok.mp h
    exact hF ▸ .reset

theorem decode_of_laidOut {w : OpWord} {i : Instr} (h : LaidOut w i) : decode w = .ok i := by
  cases h with
  | timeout | opened | closed | reset => rfl
  | byte => exact (decode_tag_append _ 0x2#4 _).trans (decodeByteOp_eq_ok.mpr ⟨_, rfl, rfl⟩)
  | tableWrite => exact (decode_tag_append _ 0x4#4 _).trans (decodeLutOp_eq_ok.mpr ⟨_, _, _, rfl, rfl⟩)
  | encoding hlen => exact (decode_tag_append _ 0x5#4 _).trans (decodeEncodeOp_eq_ok.mpr ⟨_, hlen, rfl, rfl⟩)

/-- An operation word decodes exactly as 30_encoding.md R101 lays it out. -/
theorem decode_eq_ok_iff {w : OpWord} {i : Instr} : decode w = .ok i ↔ LaidOut w i := by
  refine ⟨fun h => ?_, decode_of_laidOut⟩
  obtain ⟨tag, rest, hbits, htagged⟩ := exists_tag_of_decode h
  have hlaid := laidOut_of_decodeTagged htagged
  rwa [← hbits] at hlaid

/-- A tag from 0x6 to 0xE selects no format. -/
theorem decode_reservedTag (src : Option Nat) {tag : BitVec 4} (more : List Bool) (hlo : 6 ≤ tag.toNat)
    (hhi : tag.toNat ≤ 14) : decode ⟨src, toBits 4 tag.toNat ++ more⟩ = .error (.reservedTag tag) := by
  have hne : ∀ k : BitVec 4, k.toNat < 6 ∨ 14 < k.toNat → tag ≠ k := by
    rintro k hk rfl
    omega
  rw [decode_tag_append]
  simp [decodeTagged, hne]

/-! Header words. -/

/-- The mask of 30_encoding.md R102 keeps the command byte alone. -/
theorem headerMask_eq_iff (a c : Byte) (len : BitVec 16) :
    (a ++ c ++ len) &&& 0x00FF0000#32 = 0x00010000#32 ↔ c = 1#8 := by
  have hmask : (a ++ c ++ len) &&& 0x00FF0000#32 = 0#8 ++ c ++ 0#16 := by
    rw [show 0x00FF0000#32 = 0#8 ++ BitVec.allOnes 8 ++ 0#16 by decide, BitVec.and_append, BitVec.and_append,
      BitVec.and_zero, BitVec.and_allOnes, BitVec.and_zero]
  rw [hmask, show 0x00010000#32 = 0#8 ++ 1#8 ++ 0#16 by decide, BitVec.append_left_inj, BitVec.append_right_inj]

/-- The command of a header word, whose fields it hands on, is selected by the command byte. -/
theorem decodeHeader_fields (src : Nat) (a c : Byte) (len : BitVec 16) :
    decodeHeader src (a ++ c ++ len) = if c = 1#8 then .setPixels src a len else .cmdOther src a c len := by
  have haddr : (a ++ c ++ len).extractLsb' 24 8 = a := by
    rw [BitVec.extractLsb'_append_eq_of_le (by decide)]
    exact BitVec.extractLsb'_append_eq_left
  have hcmd : (a ++ c ++ len).extractLsb' 16 8 = c := by
    rw [BitVec.extractLsb'_append_eq_of_le (by decide)]
    exact BitVec.extractLsb'_append_eq_right
  have hlen : (a ++ c ++ len).extractLsb' 0 16 = len := BitVec.extractLsb'_append_eq_right
  rw [decodeHeader, haddr, hcmd, hlen]
  exact if_congr (headerMask_eq_iff a c len) rfl rfl

/-! The obligations. -/

/-- Settles O5: an operation's word is laid out as its format, and a frame command's header word holds its fields. -/
theorem decodeOfEncodeIsIdentity : Obligations.DecodeOfEncodeIsIdentity := by
  intro i hwf
  cases i with
  | fdTimeout src => exact decode_of_laidOut (.timeout (src := some src))
  | fdOpen src => exact decode_of_laidOut (.opened (src := some src))
  | fdByte src b => exact decode_of_laidOut (.byte (src := some src))
  | fdClose src => exact decode_of_laidOut (.closed (src := some src))
  | lutWrite c v val => exact decode_of_laidOut (.tableWrite (src := none))
  | weEncode px =>
    have hlen : px.length ≤ 21845 := of_decide_eq_true hwf
    rw [encode, decodeRow, List.append_assoc]
    exact decode_of_laidOut (.encoding (by omega))
  | reset src => exact decode_of_laidOut .reset
  | setPixels src addr len => exact congrArg Except.ok ((decodeHeader_fields src addr 1#8 len).trans (if_pos rfl))
  | cmdOther src addr cmd len =>
    have hcmd : cmd ≠ 1#8 := by simpa [Instr.wf, Config.cmdSetPixels] using hwf
    exact congrArg Except.ok ((decodeHeader_fields src addr cmd len).trans (if_neg hcmd))

/-- Settles O6: each format of an operation word leaves no bit open, and the encoder writes the same bits. -/
theorem operationWordIsDeterminedByItsMeaning : Obligations.OperationWordIsDeterminedByItsMeaning := by
  intro w i h
  cases decode_eq_ok_iff.mp h with
  | timeout | opened | byte | closed | reset => exact ⟨_, rfl, rfl⟩
  | tableWrite | encoding => exact ⟨_, rfl, by simp⟩

/-- Settles O8: the mask keeps the command byte, and each field is read back from its place. -/
theorem commandSelectedByCommandByteAlone : Obligations.CommandSelectedByCommandByteAlone :=
  decodeHeader_fields

/-- Settles O9: the word of a reserved tag does not decode, and the step is refused under the decoder's error. -/
theorem reservedTagsRefused : Obligations.ReservedTagsRefused := by
  intro s src tag more rest hlo hhi hin
  exact Machine.step_of_decode_error hin (decode_reservedTag src more hlo hhi)

/-- Settles O7, by evaluating the decoder on the words. -/
theorem writtenOutWordsDecode : Obligations.WrittenOutWordsDecode :=
  ⟨rfl, rfl, rfl, rfl, rfl, rfl, rfl, rfl, rfl⟩

end Sys2Proof
end

section
/-!
PROOF. The bytes a decoder has received of its current frame, and how FD_BYTE moves them: every inbound byte string parses
into frames (30_encoding.md R90, R104).
-/

namespace Sys2Proof.Machine

/-! The bytes received. -/

/-- The payload bytes a decoder has received of its current frame (10_state.md R24, R25). -/
def FD.payload (fd : FD) : List Byte :=
  (List.range fd.payCnt.toNat).map fd.payByte

/-- The bytes a decoder has received of its current frame, header first (30_encoding.md R90). -/
def FD.received (fd : FD) : List Byte :=
  [fd.hdrAddr, fd.hdrCmd, fd.hdrLenHi, fd.hdrLenLo].take fd.hdrCnt.toNat ++ fd.payload

theorem payload_of_payCnt {fd : FD} (h : fd.payCnt = 0) : fd.payload = [] := by
  simp [FD.payload, h]

theorem payload_length (fd : FD) : fd.payload.length = fd.payCnt.toNat := by
  simp [FD.payload]

theorem received_of_header {fd : FD} (hpay : fd.payCnt = 0) :
    fd.received = [fd.hdrAddr, fd.hdrCmd, fd.hdrLenHi, fd.hdrLenLo].take fd.hdrCnt.toNat := by
  rw [FD.received, payload_of_payCnt hpay, List.append_nil]

theorem received_of_payload {fd : FD} (h4 : 4 ≤ fd.hdrCnt.toNat) :
    fd.received = fd.hdrAddr :: fd.hdrCmd :: fd.hdrLenHi :: fd.hdrLenLo :: fd.payload := by
  rw [FD.received, List.take_of_length_le h4]
  rfl

theorem received_clearCounters (fd : FD) : fd.clearCounters.received = [] := by
  rw [received_of_header rfl]
  rfl

/-- What a decoder holds of its frame is never the whole of it (10_state.md R33, I-c). -/
theorem FD.Inv.incomplete_received {fd : FD} (h : fd.Inv) : Incomplete fd.received := by
  rcases Nat.lt_or_ge fd.hdrCnt.toNat 4 with hlt | h4
  · rw [received_of_header (h.headerNoPayload hlt)]
    exact .inl (by rw [List.length_take]; omega)
  · refine .inr ⟨_, _, _, _, _, received_of_payload h4, ?_⟩
    rw [payload_length, ← payLen_toNat]
    exact h.payCnt_lt h4

theorem received_stored_of_header {fd : FD} (h : fd.hdrCnt.toNat < 4) (hpay : fd.payCnt = 0) (b : Byte) :
    (fd.stored b).received = fd.received ++ [b] := by
  have hpay' : (fd.stored b).payCnt = 0 := by rw [stored_payCnt, if_pos h, hpay]
  have hcnt : fd.hdrCnt = 0 ∨ fd.hdrCnt = 1 ∨ fd.hdrCnt = 2 ∨ fd.hdrCnt = 3 := by bv_omega
  rw [received_of_header hpay', received_of_header hpay, stored_hdrCnt, if_pos h, stored_hdrAddr, stored_hdrCmd,
    stored_hdrLenHi, stored_hdrLenLo]
  rcases hcnt with h0 | h1 | h2 | h3
  · simp [h0]
  · simp [h1]
  · simp [h2]
  · simp [h3]

/-- The payload path appends its byte to the payload (40_frame_decoder.md R132). -/
theorem payload_stored {fd : FD} (h4 : 4 ≤ fd.hdrCnt.toNat) (hroom : fd.payCnt.toNat < 65535) (b : Byte) :
    (fd.stored b).payload = fd.payload ++ [b] := by
  have hcnt : (fd.stored b).payCnt.toNat = fd.payCnt.toNat + 1 := by
    rw [stored_payCnt, if_neg (by omega)]
    bv_omega
  have hold : ∀ j ∈ List.range fd.payCnt.toNat, (fd.stored b).payByte j = fd.payByte j := by
    intro j hj
    have hne : j ≠ fd.payCnt.toNat := Nat.ne_of_lt (List.mem_range.mp hj)
    rw [stored_of_payload h4]
    simp only [FD.payByte, FD.storePayload, read_write_other b hne]
  have hnew : (fd.stored b).payByte fd.payCnt.toNat = b := by
    rw [stored_of_payload h4]
    simp [FD.payByte, FD.storePayload]
  rw [FD.payload, hcnt, List.range_succ, List.map_append, List.map_congr_left hold, List.map_singleton, hnew]
  rfl

/-- Every byte is appended to those received (40_frame_decoder.md R131, R132). -/
theorem FD.Inv.received_stored {fd : FD} (h : fd.Inv) (b : Byte) : (fd.stored b).received = fd.received ++ [b] := by
  rcases Nat.lt_or_ge fd.hdrCnt.toNat 4 with hlt | h4
  · exact received_stored_of_header hlt (h.headerNoPayload hlt) b
  · have hcnt := h.payCnt_lt h4
    have hlen := fd.payLen.isLt
    have h4' : 4 ≤ (fd.stored b).hdrCnt.toNat := by rw [stored_hdrCnt, if_neg (by omega)]; exact h4
    rw [received_of_payload h4', received_of_payload h4, payload_stored h4 (by omega), stored_of_payload h4]
    rfl

/-! A completed frame. -/

/-- The frame whose header and payload a decoder holds. -/
def FD.frame (fd : FD) : Frame :=
  ⟨fd.hdrAddr, fd.hdrCmd, fd.payload⟩

/-- After the last byte of a frame the payload is as long as declared. -/
theorem FD.Inv.payload_stored_length {fd : FD} {b : Byte} (h : fd.Inv) (hlast : Completes fd b) :
    (fd.stored b).payload.length = (fd.stored b).payLen.toNat := by
  rw [payload_length]
  rcases hdrCnt_cases fd with hlt | h3 | h4
  · exact absurd hlast (not_completes_of_hdrCnt hlt)
  · have hheader : fd.hdrCnt.toNat < 4 := by simp [h3]
    rw [stored_payCnt, if_pos hheader, h.headerNoPayload hheader, stored_payLen_of_lastHeader h3,
      (completes_iff_of_lastHeader h3).mp hlast]
    rfl
  · have hcnt := (completes_iff_of_payload h4).mp hlast
    have hlen := fd.payLen.isLt
    rw [stored_payCnt, if_neg (by omega), stored_payLen_of_payload h4]
    bv_omega

/-- A decoder that holds a whole header and the payload it declares has received the bytes of its frame. -/
theorem frame_bytes {fd : FD} (h4 : 4 ≤ fd.hdrCnt.toNat) (hlen : fd.payload.length = fd.payLen.toNat) :
    fd.frame.bytes = fd.received := by
  have hhi : BitVec.ofNat 8 (fd.payLen.toNat / 256) = fd.hdrLenHi := by
    apply BitVec.eq_of_toNat_eq
    have := fd.hdrLenLo.isLt
    have := fd.hdrLenHi.isLt
    rw [payLen_toNat, BitVec.toNat_ofNat]
    omega
  have hlo : BitVec.ofNat 8 (fd.payLen.toNat % 256) = fd.hdrLenLo := by
    apply BitVec.eq_of_toNat_eq
    have := fd.hdrLenLo.isLt
    rw [payLen_toNat, BitVec.toNat_ofNat]
    omega
  rw [received_of_payload h4, Frame.bytes, FD.frame, frameBytes, hlen, hhi, hlo]

/-- The pixels of a payload given by its bytes are whole triplets (30_encoding.md R95). -/
theorem payloadPixels_map_range (f : Nat → Byte) (n : Nat) :
    payloadPixels ((List.range n).map f) =
      (List.range (n / 3)).map fun i => ⟨f (3 * i), f (3 * i + 1), f (3 * i + 2)⟩ := by
  induction n using Nat.strongRecOn generalizing f with
  | ind n ih =>
    match n with
    | 0 | 1 | 2 => rfl
    | m + 3 =>
      have htail := ih m (by omega) (fun i => f (i + 3))
      have hdiv : (m + 3) / 3 = m / 3 + 1 := by omega
      rw [hdiv]
      simp only [List.range_succ_eq_map, List.map_cons, List.map_map, payloadPixels]
      refine congrArg₂ List.cons rfl (htail.trans ?_)
      simp [Function.comp_def, Nat.mul_add, Nat.add_right_comm]

theorem payloadPixels_payload {fd : FD} (hlen : fd.payload.length = fd.payLen.toNat) :
    payloadPixels fd.payload = fd.pixels (pixelCount fd.payLen) := by
  rw [payload_length] at hlen
  rw [FD.payload, payloadPixels_map_range, hlen]
  rfl

/-- With tables `g` loaded the encoder sends the buffer of `g`. -/
theorem WE.Holds.wireBuffer {we : WE} {g : BitVec 2 → Byte → Byte} (h : we.Holds g) (order : ColorOrder)
    (px : List Pixel) : wireBuffer order we px = specBuffer order g px := by
  have happly : ∀ c : BitVec 2, c ≠ 3#2 → ∀ v, we.gammaApply c v = g c v := by
    intro c hc v
    rw [WE.gammaApply, h c hc v, Option.getD_some]
  have hrecord : specRecord order we.gammaApply = specRecord order g := by
    funext p
    simp only [specRecord, happly 0 (by decide), happly 1 (by decide), happly 2 (by decide)]
  rw [wireBuffer_eq, specBuffer, hrecord, specBuffer]

/-- The events of a completion are those of its frame. -/
theorem commandState_frameEvents {s : State} {g : BitVec 2 → Byte → Byte} {fd : FD} (hholds : s.we.Holds g)
    (hlen : fd.payload.length = fd.payLen.toNat) : (commandState s.cfg fd s).trace =
      s.trace ++ frameEvents s.cfg g fd.frame.addr fd.frame.cmd fd.frame.payload := by
  rw [commandState_trace, hholds.wireBuffer, FD.frame, frameEvents, payloadPixels_payload hlen, hlen,
    BitVec.ofNat_toNat, BitVec.setWidth_eq]
  rfl

/-! One byte, and a byte string. -/

/-- Source `src` is connected and has received `part` of its current frame; the tables hold `g` and every write returns. -/
structure Receiving (g : BitVec 2 → Byte → Byte) (src : Nat) (part : List Byte) (s : State) : Prop where
  decoder : ∃ fd, s.fdAt src = some fd ∧ fd.Inv ∧ fd.conn = true ∧ fd.received = part
  tables : s.we.Holds g
  writer : s.writer = .dutiful

theorem commandState_dutiful {cfg : Config} {fd : FD} {s : State} (h : s.writer = .dutiful) :
    (commandState cfg fd s).writer = .dutiful := by
  unfold commandState
  dsimp only
  split
  · split <;> simp [h]
  · simp [h]

section Receiving
variable {g : BitVec 2 → Byte → Byte} {src : Nat} {part : List Byte} {s : State}

theorem Receiving.incomplete (h : Receiving g src part s) : Incomplete part := by
  obtain ⟨fd, -, hinv, -, rfl⟩ := h.decoder
  exact hinv.incomplete_received

/-- Once a connected decoder that meets the invariant is stored, the source has received what that decoder has. -/
theorem receiving_setFd {fd fd' : FD} (hfd : s.fdAt src = some fd) (hinv : fd'.Inv) (hconn : fd'.conn = true)
    (htables : s.we.Holds g) (hwriter : s.writer = .dutiful) : Receiving g src fd'.received (s.setFd src fd') :=
  ⟨⟨fd', fdAt_setFd_same hfd, hinv, hconn, rfl⟩, htables, hwriter⟩

/-- The next byte is taken, and extends what has been received, or ends a frame and is answered by the events of that
frame. -/
theorem Receiving.fdByte (h : Receiving g src part s) (b : Byte) :
    ∃ t, exec (.fdByte src b) s = .next t ∧ t.cfg = s.cfg ∧
      ((Receiving g src (part ++ [b]) t ∧ t.trace = s.trace) ∨
        ∃ f : Frame, f.Fits ∧ f.bytes = part ++ [b] ∧ Receiving g src [] t ∧
          t.trace = s.trace ++ frameEvents s.cfg g f.addr f.cmd f.payload) := by
  obtain ⟨⟨fd, hfd, hinv, hconn, rfl⟩, htables, hwriter⟩ := h
  have hconn' : (fd.stored b).conn = true := by rw [stored_conn, hconn]
  by_cases hlast : Completes fd b
  · have hexec := exec_of_execNext (.byteCompletes hfd hconn hlast fun _ _ => by simp [hwriter])
    have hlen := hinv.payload_stored_length hlast
    obtain ⟨hfull, -⟩ := stored_full hlast
    have hfits : (fd.stored b).frame.Fits := by
      have hlt := (fd.stored b).payLen.isLt
      change (fd.stored b).payload.length ≤ 65535
      omega
    have hrecv := receiving_setFd (s := commandState s.cfg (fd.stored b) s) (fd' := (fd.stored b).clearCounters)
      (by rw [State.fdAt, commandState_fds]; exact hfd) (FD.inv_of_cleared rfl rfl (hinv.payWf_stored b)) hconn'
      (by rw [WE.Holds, commandState_lut]; exact htables) (commandState_dutiful hwriter)
    rw [received_clearCounters] at hrecv
    refine ⟨_, hexec, by simp, .inr ⟨(fd.stored b).frame, hfits, ?_, hrecv, commandState_frameEvents htables hlen⟩⟩
    rw [frame_bytes hfull hlen, hinv.received_stored]
  · have hexec := exec_of_execNext (.byteStored hfd hconn hlast)
    have hrecv := receiving_setFd hfd (hinv.stored hconn hlast) hconn' htables hwriter
    rw [hinv.received_stored] at hrecv
    exact ⟨_, hexec, rfl, .inl ⟨hrecv, rfl⟩⟩

/-- Every byte string that follows what has been received is taken: with it, it is the bytes of some frames, which are
reported, and of an incomplete one. -/
theorem Receiving.parses (h : Receiving g src part s) (bytes : List Byte) :
    ∃ (frames : List Frame) (tail : List Byte) (t : State), part ++ bytes = frames.flatMap Frame.bytes ++ tail ∧
      (∀ f ∈ frames, f.Fits) ∧ Incomplete tail ∧ runOps (bytes.map (.fdByte src)) s = .next t ∧
      t.trace = s.trace ++ frames.flatMap (fun f => frameEvents s.cfg g f.addr f.cmd f.payload) := by
  induction bytes generalizing part s with
  | nil => exact ⟨[], part, s, by simp, by simp, h.incomplete, rfl, by simp⟩
  | cons b bytes ih =>
    obtain ⟨u, hexec, hcfg, ⟨hrecv, htrace⟩ | ⟨f, hfits, hbytes, hrecv, htrace⟩⟩ := h.fdByte b
    · obtain ⟨frames, tail, t, hparse, hfit, hinc, hrun, hevents⟩ := ih hrecv
      refine ⟨frames, tail, t, by simpa using hparse, hfit, hinc, ?_, by rw [hevents, htrace, hcfg]⟩
      rw [List.map_cons, runOps, hexec, andThen_next, hrun]
    · obtain ⟨frames, tail, t, hparse, hfit, hinc, hrun, hevents⟩ := ih hrecv
      refine ⟨f :: frames, tail, t, ?_, by simpa using ⟨hfits, hfit⟩, hinc, ?_, ?_⟩
      · rw [List.nil_append] at hparse
        simp [hbytes, hparse]
      · rw [List.map_cons, runOps, hexec, andThen_next, hrun]
      · simp [hevents, htrace, hcfg]

end Receiving

/-- Settles O26: at a frame boundary nothing has been received, so the byte string itself parses. -/
theorem everyByteStringIsDecoded : Obligations.EveryByteStringIsDecoded := by
  intro s src fd g bytes hfd hinv hconn hcnt htables hwriter
  have hpay : fd.payCnt = 0 := hinv.headerNoPayload (by simp [hcnt])
  have hnone : fd.received = [] := by simp [received_of_header hpay, hcnt]
  have hrecv : Receiving g src [] s := ⟨⟨fd, hfd, hinv, hconn, hnone⟩, htables, hwriter⟩
  exact hrecv.parses bytes

end Sys2Proof.Machine
end

section
/-!
PROOF. The frame decoder byte by byte: what FD_BYTE leaves when it stores a byte and when it completes a frame
(40_frame_decoder.md R131 to R136), the refusals by name, and the state machine (R137).
-/

namespace Sys2Proof.Machine

/-! Refusals. -/

/-- FD_BYTE on a decoder with no connection (93_implementation_defined.md U1). -/
theorem exec_fdByte_notConnected {s : State} {src : Nat} {fd : FD} (b : Byte) (hfd : s.fdAt src = some fd)
    (hconn : fd.conn = false) : exec (.fdByte src b) s = .refused .notConnected :=
  (onFd_of_some hfd _).trans (if_pos hconn)

/-- FD_OPEN on a decoder with a connection (93_implementation_defined.md U2). -/
theorem exec_fdOpen_alreadyConnected {s : State} {src : Nat} {fd : FD} (hfd : s.fdAt src = some fd)
    (hconn : fd.conn = true) : exec (.fdOpen src) s = .refused .alreadyConnected :=
  (onFd_of_some hfd _).trans (if_pos hconn)

/-- Settles O12: each enable condition is the first test of its operation, after the existence of its decoder, if it names
one (60_exceptions.md R251 E5). -/
theorem refusalsByName : Obligations.RefusalsByName := by
  refine ⟨fun s src fd b => exec_fdByte_notConnected b, fun s src fd => exec_fdOpen_alreadyConnected,
    fun s v val => rfl, fun s px hpx => if_pos hpx, fun s src b hsrc => ?_⟩
  have hnone (f : FD → Result) : s.onFd src f = .refused .noSuchSource := onFd_of_none (List.getElem?_eq_none hsrc) f
  exact ⟨hnone _, hnone _, hnone _, hnone _, hnone _⟩

/-- Settles O21, from the one ending of a CMD_OTHER on an existing decoder. -/
theorem otherCommandsDoNothing : Obligations.OtherCommandsDoNothing := by
  intro s src addr cmd len hsrc
  obtain ⟨fd, hfd⟩ := fdAt_of_lt hsrc
  exact exec_of_execNext (.commandIgnored hfd)

/-! A byte that is stored and does not complete its frame. -/

/-- The header path on a byte that leaves the frame open is one store at the count and one count
(40_frame_decoder.md R131). -/
theorem exec_fdByte_header {s : State} {src : Nat} {fd : FD} {b : Byte} {cnt : BitVec 3} (hfd : s.fdAt src = some fd)
    (hconn : fd.conn = true) (hcnt : fd.hdrCnt = cnt) (hheader : cnt.toNat < 4) (hmore : ¬ Completes fd b) :
    exec (.fdByte src b) s = .next (s.setFd src { fd.setHdr cnt.toNat b with hdrCnt := cnt + 1 }) := by
  subst hcnt
  exact (exec_of_execNext (.byteStored hfd hconn hmore)).trans (by rw [stored_of_header hheader, FD.storeHeader])

/-- The payload path on a byte that leaves the frame open is one store and one count (40_frame_decoder.md R132). -/
theorem exec_fdByte_payload {s : State} {src : Nat} {fd : FD} {b : Byte} (hfd : s.fdAt src = some fd)
    (hconn : fd.conn = true) (hpayload : 4 ≤ fd.hdrCnt.toNat) (hmore : ¬ Completes fd b) :
    exec (.fdByte src b) s = .next (s.setFd src (fd.storePayload b)) := by
  rw [← stored_of_payload hpayload b]
  exact exec_of_execNext (.byteStored hfd hconn hmore)

/-- Settles O16: one store of the header path for each count. -/
theorem headerByteStoredAtItsCount : Obligations.HeaderByteStoredAtItsCount := by
  intro s src fd b hfd hconn
  have hearly {cnt : BitVec 3} (hcnt : fd.hdrCnt = cnt) (hlt : cnt.toNat < 3) :=
    exec_fdByte_header hfd hconn hcnt (by omega) (not_completes_of_hdrCnt (b := b) (hcnt ▸ hlt))
  exact ⟨fun h0 => hearly h0 (by decide), fun h1 => hearly h1 (by decide), fun h2 => hearly h2 (by decide),
    fun h3 hlen => exec_fdByte_header hfd hconn h3 (by decide) (mt (completes_iff_of_lastHeader h3).mp hlen)⟩

/-- Settles O18: one store of the payload path. -/
theorem payloadByteStoredAtItsCount : Obligations.PayloadByteStoredAtItsCount := by
  intro s src fd b hfd hconn h4 hlen
  have hpayload : 4 ≤ fd.hdrCnt.toNat := by simp [h4]
  have hmore : ¬ Completes fd b := by rwa [completes_iff_of_payload hpayload, payLen_toNat]
  exact ⟨fd.pay.write fd.payCnt.toNat b, exec_fdByte_payload hfd hconn hpayload hmore, read_write_same ..,
    fun a ha => read_write_other b ha⟩

/-! The payload of a frame. -/

/-- The first `n` bytes of the payload buffer. -/
def FD.payBytes (fd : FD) (n : Nat) : List Byte :=
  (List.range n).map fd.payByte

@[simp] theorem payBytes_length (fd : FD) (n : Nat) : (fd.payBytes n).length = n := by
  simp [FD.payBytes]

@[simp] theorem payBytes_zero (fd : FD) : fd.payBytes 0 = [] := rfl

/-- Bytes that the payload buffer holds from its start are the first bytes of it. -/
theorem payBytes_eq_of_held {fd : FD} {n : Nat} {payload : List Byte} (hlen : payload.length = n)
    (hheld : ∀ j, j < n → fd.pay.read j = payload[j]?) : fd.payBytes n = payload := by
  refine List.ext_getElem (by simp [hlen]) fun j hj hj' => ?_
  have hread := hheld j (by simpa using hj)
  simp [FD.payBytes, FD.payByte, hread, List.getElem?_eq_getElem hj']

/-- The pixels of a command are the whole triplets of its payload (30_encoding.md R95). -/
theorem payloadPixels_payBytes (fd : FD) (len : BitVec 16) :
    payloadPixels (fd.payBytes len.toNat) = fd.pixels (pixelCount len) :=
  payloadPixels_map_range ..

/-- Settles O20: the arm is the command's body in the reference composition. -/
theorem setPixelsReportsWholePixels : Obligations.SetPixelsReportsWholePixels := by
  intro s src fd addr len payload hfd hlen hheld
  have hpixels : fd.pixels (pixelCount len) = payloadPixels payload := by
    rw [← payloadPixels_payBytes, payBytes_eq_of_held hlen hheld]
  have hexec := setPixelsWith_reference (cfg := s.cfg) (addr := addr) (len := len) hfd
  rw [hpixels] at hexec
  exact ⟨fun haccept => hexec.trans (if_neg (by simp [haccept])), fun haccept => hexec.trans (if_pos haccept),
    fun haccept hwriter => ⟨_, exec_of_execNext (.pixelsEncoded hfd haccept hwriter)⟩⟩

/-! A byte that completes its frame. -/

/-- The events of a completion are those of the frame in the payload buffer, under the encoder's own tables. -/
theorem commandState_trace_eq_frameEvents (fd : FD) (s : State) : (commandState s.cfg fd s).trace =
    s.trace ++ frameEvents s.cfg s.we.gammaApply fd.hdrAddr fd.hdrCmd (fd.payBytes fd.payLen.toNat) := by
  rw [commandState_trace, wireBuffer_eq, frameEvents, payloadPixels_payBytes, payBytes_length, BitVec.ofNat_toNat,
    BitVec.setWidth_eq]
  rfl

/-- A command-1 frame of an accepted address has, on all but trace and decoders, the effect of the encode of its pixels:
the events before it touch nothing else (44_dataflow.md R240). -/
theorem encodeEffect_commandState {cfg : Config} {fd : FD} {s : State} (hcmd : fd.hdrCmd = Config.cmdSetPixels)
    (haccept : cfg.accepts fd.hdrAddr = true) :
    EncodeEffect s.we.gammaApply (payloadPixels (fd.payBytes fd.payLen.toNat)) s (commandState cfg fd s) := by
  rw [commandState, if_pos hcmd, if_pos haccept, payloadPixels_payBytes]
  obtain ⟨houtLen, hout, hlut, hseed, hreturns, hfaults, hdraws, hwriter, hcfg, hinput⟩ :=
    encodeEffect_wireEncode (fd.pixels (pixelCount fd.payLen))
      ((s.emit (.frameDone fd.hdrAddr fd.hdrCmd fd.payLen)).emit
        (.pixels fd.hdrAddr (pixelCount fd.payLen) (fd.pixels (pixelCount fd.payLen))))
  exact ⟨houtLen, hout, hlut, hseed, hreturns, hfaults, hdraws, hwriter, hcfg, hinput⟩

/-- An encode does not touch the decoders, so its effect does not speak of them. -/
theorem EncodeEffect.setFd {g : BitVec 2 → Byte → Byte} {px : List Pixel} {s t : State} (h : EncodeEffect g px s t)
    (k : Nat) (fd : FD) : EncodeEffect g px s (t.setFd k fd) :=
  ⟨h.outLen, h.out, h.lut, h.seed, h.returns, h.faults, h.draws, h.writer, h.cfg, h.input⟩

/-- The byte `b` completed the frame with this payload in the decoder `fd` of source `src`, taking `s` to `t`: the
counters are clear, the frame's events stand in the trace, and the encoder has done the frame's encode, if it has one. -/
structure FrameCompleted (src : Nat) (fd : FD) (b : Byte) (payload : List Byte) (s t : State) : Prop where
  fds : t.fds = s.fds.set src (fd.stored b).clearCounters
  trace : t.trace = s.trace ++ frameEvents s.cfg s.we.gammaApply fd.hdrAddr fd.hdrCmd payload
  encode : fd.hdrCmd = 1 → s.cfg.accepts fd.hdrAddr = true →
    EncodeEffect s.we.gammaApply (payloadPixels payload) s t
  quiet : ¬ (fd.hdrCmd = 1 ∧ s.cfg.accepts fd.hdrAddr = true) → NoEncode s t

/-- The last byte of a frame completes it in its own operation, if the write it makes, if any, returns
(40_frame_decoder.md R134, 60_exceptions.md R270). -/
theorem exec_fdByte_completes {s : State} {src : Nat} {fd : FD} {b : Byte} (hfd : s.fdAt src = some fd)
    (hconn : fd.conn = true) (hlast : Completes fd b)
    (hwriter : fd.hdrCmd = 1 → s.cfg.accepts fd.hdrAddr = true → s.writer.returns = true) :
    ∃ t, exec (.fdByte src b) s = .next t ∧
      FrameCompleted src fd b ((fd.stored b).payBytes (fd.stored b).payLen.toNat) s t := by
  obtain ⟨haddr, hcmd⟩ := stored_fields hlast
  have hnext := ExecNext.byteCompletes hfd hconn hlast hwriter
  refine ⟨_, exec_of_execNext hnext, ?_, ?_, fun h1 haccept => ?_, fun hquiet => ?_⟩
  · rw [setFd_fds, commandState_fds]
  · rw [setFd_trace, commandState_trace_eq_frameEvents, haddr, hcmd]
  · exact (encodeEffect_commandState (hcmd.trans h1) (by rwa [haddr])).setFd ..
  · exact hnext.fdByte_noEncode hfd fun ⟨_, hcommand⟩ => hquiet hcommand

/-- The zero byte that ends a header of length 0 completes a frame with no payload (40_frame_decoder.md R133). -/
theorem exec_fdByte_zeroLength {s : State} {src : Nat} {fd : FD} {b : Byte} (hfd : s.fdAt src = some fd)
    (hconn : fd.conn = true) (h3 : fd.hdrCnt = 3) (hzero : fd.hdrLenHi.toNat * 256 + b.toNat = 0)
    (hwriter : fd.hdrCmd = 1 → s.cfg.accepts fd.hdrAddr = true → s.writer.returns = true) :
    ∃ t, exec (.fdByte src b) s = .next t ∧ FrameCompleted src fd b [] s t := by
  have hcompletes := exec_fdByte_completes hfd hconn ((completes_iff_of_lastHeader h3).mpr hzero) hwriter
  rwa [stored_payLen_of_lastHeader h3, hzero, payBytes_zero] at hcompletes

/-- The last payload byte completes a frame with the payload it was the end of (40_frame_decoder.md R132). -/
theorem exec_fdByte_lastPayload {s : State} {src : Nat} {fd : FD} {b : Byte} (hfd : s.fdAt src = some fd)
    (hconn : fd.conn = true) (h4 : 4 ≤ fd.hdrCnt.toNat) (hlen : fd.payCnt.toNat + 1 = fd.payLen.toNat)
    (hwriter : fd.hdrCmd = 1 → s.cfg.accepts fd.hdrAddr = true → s.writer.returns = true) :
    ∃ t, exec (.fdByte src b) s = .next t ∧
      FrameCompleted src fd b ((fd.storePayload b).payBytes fd.payLen.toNat) s t := by
  have hcompletes := exec_fdByte_completes (b := b) hfd hconn ((completes_iff_of_payload h4).mpr hlen) hwriter
  rwa [stored_payLen_of_payload h4, stored_of_payload h4] at hcompletes

/-- The tables play no part in an encode of no pixels. -/
theorem EncodeEffect.of_nil {g : BitVec 2 → Byte → Byte} {s t : State} (h : EncodeEffect g [] s t)
    (g' : BitVec 2 → Byte → Byte) : EncodeEffect g' [] s t :=
  ⟨h.outLen, h.out, h.lut, h.seed, h.returns, h.faults, h.draws, h.writer, h.cfg, h.input⟩

/-- An encode of no pixels writes the four zeros of the preamble (43_wire_encoder.md R214, R216). -/
theorem EncodeEffect.out_nil {g : BitVec 2 → Byte → Byte} {s t : State} (h : EncodeEffect g [] s t) (k : Nat) :
    t.we.out.read k = if k < 4 then some 0 else s.we.out.read k := by
  rw [h.out]
  match k with
  | 0 | 1 | 2 | 3 => rfl
  | k + 4 => simp

/-- An encode of no pixels looks up no entry. -/
theorem EncodeEffect.faults_nil {g : BitVec 2 → Byte → Byte} {s t : State} (h : EncodeEffect g [] s t) :
    t.faults = s.faults := by
  obtain ⟨new, hfaults, hnew⟩ := h.faults
  have hnone : new = [] := List.eq_nil_iff_forall_not_mem.mpr fun f hf => by
    obtain ⟨c, v, -, -, p, hp, -⟩ := (hnew f).mp hf
    exact absurd hp List.not_mem_nil
  rw [hfaults, hnone, List.append_nil]

/-- Settles O17: the fourth header byte completes a frame with no payload, whose encode is that of no pixels. -/
theorem zeroLengthFrameCompletesAtFourthHeaderByte : Obligations.ZeroLengthFrameCompletesAtFourthHeaderByte := by
  intro s src fd hfd hconn h3 hhi hwriter
  obtain ⟨t, hexec, hdone⟩ := exec_fdByte_zeroLength (b := 0) hfd hconn h3 (by simp [hhi]) hwriter
  refine ⟨t, hexec, ?_, hdone.trace, ?_, fun hcmd haccept => ?_, hdone.quiet⟩
  · rw [hdone.fds, stored_of_header (by simp [h3])]
    simp [FD.storeHeader, FD.setHdr, h3, FD.clearCounters]
  · by_cases hcommand : fd.hdrCmd = 1 ∧ s.cfg.accepts fd.hdrAddr = true
    · obtain ⟨hcmd, haccept⟩ := hcommand
      exact (hdone.encode hcmd haccept).faults_nil
    · exact (hdone.quiet hcommand).faults
  · have heffect := hdone.encode hcmd haccept
    exact ⟨heffect.outLen, heffect.out_nil, heffect.of_nil⟩

/-- The payload path's store appends its byte to the payload the buffer holds. -/
theorem payBytes_storePayload_of_held {fd : FD} {b : Byte} {n : Nat} {payload : List Byte} (hlen : payload.length = n)
    (hn : n = fd.payCnt.toNat + 1) (hheld : ∀ j, j < fd.payCnt.toNat → fd.pay.read j = payload[j]?)
    (hb : payload[fd.payCnt.toNat]? = some b) : (fd.storePayload b).payBytes n = payload := by
  refine payBytes_eq_of_held hlen fun j hj => ?_
  rw [FD.storePayload, read_write]
  split
  · next hj' => rw [hj', hb]
  · exact hheld j (by omega)

theorem payloadPixels_length : ∀ payload : List Byte, (payloadPixels payload).length = payload.length / 3
  | [] | [_] | [_, _] => by simp [payloadPixels]
  | r :: g :: b :: rest => by
    simp only [payloadPixels, List.length_cons, payloadPixels_length rest]
    omega

/-- Settles O19: the byte completes the frame whose payload, with it, is `payload`. -/
theorem lastPayloadByteDispatchesFrame : Obligations.LastPayloadByteDispatchesFrame := by
  intro s src fd b payload hfd hconn h4 hlen hcnt hheld hb hwriter
  have hpayload : 4 ≤ fd.hdrCnt.toNat := by simp [h4]
  rw [← payLen_toNat] at hlen
  obtain ⟨t, hexec, hdone⟩ := exec_fdByte_lastPayload (b := b) hfd hconn hpayload (hcnt.symm.trans hlen) hwriter
  rw [payBytes_storePayload_of_held hlen (hlen.symm.trans hcnt) hheld hb] at hdone
  refine ⟨t, s.we.gammaApply, fd.pay.write fd.payCnt.toNat b, gammaApply_agrees s.we, hexec, hdone.trace, ?_,
    read_write_same .., fun a ha => read_write_other b ha, fun hcmd haccept => ⟨?_, hdone.encode hcmd haccept⟩,
    hdone.quiet⟩
  · rw [hdone.fds, stored_of_payload hpayload]
    rfl
  · have hcount : payload.length / 3 ≤ Config.pixMax := hlen ▸ pixelCount_le fd.payLen
    rw [(hdone.encode hcmd haccept).outLen, payloadPixels_length]
    exact bufferLen_toNat hcount

/-! The state machine. -/

section phase
variable {fd : FD}

theorem phase_eq_disconnected : fd.phase = .disconnected ↔ fd.conn = false := by
  unfold FD.phase
  split
  · next hconn => simp [hconn]
  · next hconn => split <;> simp [hconn]

theorem phase_eq_awaitHeader : fd.phase = .awaitHeader ↔ fd.conn = true ∧ fd.hdrCnt.toNat < 4 := by
  unfold FD.phase
  split
  · next hconn => simp [hconn]
  · next hconn =>
    split
    · next hlt => simp [hconn, hlt]
    · next hge => simp [hge]

theorem phase_eq_awaitPayload : fd.phase = .awaitPayload ↔ fd.conn = true ∧ 4 ≤ fd.hdrCnt.toNat := by
  unfold FD.phase
  split
  · next hconn => simp [hconn]
  · next hconn =>
    split
    · next hlt => simp [hlt]
    · next hge => simpa [hconn] using hge

end phase

/-- A header byte before the last leaves the decoder awaiting the rest of the header. -/
theorem phase_stored_of_header {fd : FD} (hconn : fd.conn = true) (hlt : fd.hdrCnt.toNat < 3) (b : Byte) :
    (fd.stored b).phase = .awaitHeader := by
  refine phase_eq_awaitHeader.mpr ⟨by simp [hconn], ?_⟩
  rw [stored_hdrCnt, if_pos (by omega)]
  bv_omega

/-- From the last header byte on, each stored byte leaves the decoder awaiting payload. -/
theorem phase_stored_of_headerEnd {fd : FD} (hconn : fd.conn = true) (hend : 3 ≤ fd.hdrCnt.toNat) (b : Byte) :
    (fd.stored b).phase = .awaitPayload := by
  refine phase_eq_awaitPayload.mpr ⟨by simp [hconn], ?_⟩
  rw [stored_hdrCnt]
  split
  · bv_omega
  · next h4 => omega

/-- A byte that does not complete its frame leaves the decoder that stored it, and no event. -/
theorem exec_fdByte_stored {s : State} {src : Nat} {fd : FD} {b : Byte} (hfd : s.fdAt src = some fd)
    (hconn : fd.conn = true) (hmore : ¬ Completes fd b) :
    ∃ t, exec (.fdByte src b) s = .next t ∧ t.fds[src]? = some (fd.stored b) ∧ t.trace = s.trace :=
  ⟨_, exec_of_execNext (.byteStored hfd hconn hmore), fdAt_setFd_same hfd, rfl⟩

/-- After a completion the decoder awaits the next header. -/
theorem FrameCompleted.awaitsHeader {src : Nat} {fd : FD} {b : Byte} {payload : List Byte} {s t : State}
    (h : FrameCompleted src fd b payload s t) (hfd : s.fdAt src = some fd) (hconn : fd.conn = true) :
    ∃ fd', t.fds[src]? = some fd' ∧ fd'.phase = .awaitHeader ∧ fd'.hdrCnt = 0 ∧ fd'.payCnt = 0 := by
  refine ⟨(fd.stored b).clearCounters, ?_, phase_eq_awaitHeader.mpr ⟨?_, by simp⟩, rfl, rfl⟩
  · rw [h.fds, List.getElem?_set_self (fdAt_lt hfd)]
  · rw [clearCounters_conn, stored_conn, hconn]

/-- The events of a command-1 frame of length `len` (40_frame_decoder.md R135, 44_dataflow.md R240). -/
theorem frameEvents_setPixels {cmd : Byte} (hcmd : cmd = 1) {payload : List Byte} {len : BitVec 16}
    (hlen : payload.length = len.toNat) (cfg : Config) (g : BitVec 2 → Byte → Byte) (addr : Byte) :
    frameEvents cfg g addr cmd payload =
      [.frameDone addr cmd len, .pixels addr (len.toNat / 3) (payloadPixels payload)] ++
      if cfg.accepts addr then
        [.serialWrite (specBuffer cfg.colorOrder g (payloadPixels payload)) (4 + 4 * (len.toNat / 3))]
      else [] := by
  rw [frameEvents, if_pos hcmd, hlen, BitVec.ofNat_toNat, BitVec.setWidth_eq]
  rfl

/-- The one event of a frame of another command (40_frame_decoder.md R136). -/
theorem frameEvents_other {cmd : Byte} (hcmd : cmd ≠ 1) {payload : List Byte} {len : BitVec 16}
    (hlen : payload.length = len.toNat) (cfg : Config) (g : BitVec 2 → Byte → Byte) (addr : Byte) :
    frameEvents cfg g addr cmd payload = [.frameDone addr cmd len] := by
  rw [frameEvents, if_neg hcmd, hlen, BitVec.ofNat_toNat, BitVec.setWidth_eq]

/-- A disconnected decoder is as an FD_CLOSE leaves it (10_state.md R33, I-d). -/
theorem FD.Inv.clearCounters_of_disconnected {fd : FD} (h : fd.Inv) (hconn : fd.conn = false) :
    { fd.clearCounters with conn := false } = fd := by
  obtain ⟨hhdr, hpay⟩ := h.disconnectedClear hconn
  rw [FD.clearCounters, ← hhdr, ← hpay, ← hconn]

/-- Settles O24: each row of R137's table is one ending of its operation. -/
theorem stateMachineFollowsTable : Obligations.StateMachineFollowsTable := by
  intro s src fd hfd hinv
  refine ⟨fun hphase => ?disconnected, fun hphase b => ?awaitHeader, fun hphase b => ?awaitPayload,
    fun hphase => ?connected, exec_of_execNext (.timeout hfd), ?reset⟩
  case disconnected =>
    have hconn := phase_eq_disconnected.mp hphase
    refine ⟨⟨_, _, exec_of_execNext (.opened hfd hconn), fdAt_setFd_same hfd, rfl, rfl, rfl⟩,
      ⟨_, exec_of_execNext (.closed hfd), ?_, rfl⟩, fun b => ⟨_, exec_fdByte_notConnected b hfd hconn⟩⟩
    rw [State.closeFd, hinv.clearCounters_of_disconnected hconn]
    exact fdAt_setFd_same hfd
  case awaitHeader =>
    obtain ⟨hconn, hheader⟩ := phase_eq_awaitHeader.mp hphase
    refine ⟨fun hlt => ?_, fun h3 hlen => ?_, fun h3 hzero hwriter => ?_⟩
    · obtain ⟨t, hexec, hfd', htrace⟩ := exec_fdByte_stored hfd hconn (not_completes_of_hdrCnt hlt)
      refine ⟨t, _, hexec, hfd', phase_stored_of_header hconn hlt b, ?_, htrace⟩
      rw [stored_hdrCnt, if_pos hheader]
    · obtain ⟨t, hexec, hfd', htrace⟩ :=
        exec_fdByte_stored hfd hconn (mt (completes_iff_of_lastHeader h3).mp hlen)
      refine ⟨t, _, hexec, hfd', phase_stored_of_headerEnd hconn (by simp [h3]) b, ?_, htrace⟩
      rw [stored_payCnt, if_pos hheader, hinv.headerNoPayload hheader]
    · obtain ⟨t, hexec, hdone⟩ := exec_fdByte_zeroLength hfd hconn h3 hzero hwriter
      obtain ⟨fd', hfd', hphase', hhdr, -⟩ := hdone.awaitsHeader hfd hconn
      have hlen : ([] : List Byte).length = (0#16).toNat := rfl
      refine ⟨t, fd', hexec, hfd', hphase', hhdr, fun hcmd => ?_, fun hcmd => ?_⟩
      · rw [hdone.trace, frameEvents_setPixels hcmd hlen, List.append_assoc]
        rfl
      · rw [hdone.trace, frameEvents_other hcmd hlen]
        rfl
  case awaitPayload =>
    obtain ⟨hconn, h4⟩ := phase_eq_awaitPayload.mp hphase
    refine ⟨fun hlt => ?_, fun hlast hwriter => ?_⟩
    · have hmore : ¬ Completes fd b := by rw [completes_iff_of_payload h4]; omega
      obtain ⟨t, hexec, hfd', htrace⟩ := exec_fdByte_stored hfd hconn hmore
      have hroom := fd.payLen.isLt
      refine ⟨t, _, hexec, hfd', phase_stored_of_headerEnd hconn (by omega) b, ?_, htrace⟩
      rw [stored_payCnt, if_neg (by omega)]
      bv_omega
    · obtain ⟨t, hexec, hdone⟩ := exec_fdByte_lastPayload (b := b) hfd hconn h4 hlast hwriter
      obtain ⟨fd', hfd', hphase', hhdr, hpay⟩ := hdone.awaitsHeader hfd hconn
      have hlen := payBytes_length (fd.storePayload b) fd.payLen.toNat
      generalize (fd.storePayload b).payBytes fd.payLen.toNat = payload at hdone hlen
      refine ⟨t, fd', hexec, hfd', hphase', hhdr, hpay, fun hcmd => ?_, fun hcmd => ?_⟩
      · refine ⟨payloadPixels payload, specBuffer s.cfg.colorOrder s.we.gammaApply (payloadPixels payload),
          by rw [payloadPixels_length, hlen], ?_⟩
        rw [hdone.trace, frameEvents_setPixels hcmd hlen, List.append_assoc]
      · rw [hdone.trace, frameEvents_other hcmd hlen]
  case connected =>
    have hconn : fd.conn = true := by simpa using mt phase_eq_disconnected.mpr hphase
    exact ⟨⟨_, _, exec_of_execNext (.closed hfd), fdAt_setFd_same hfd, rfl, rfl, rfl, rfl⟩,
      _, exec_fdOpen_alreadyConnected hfd hconn⟩
  case reset =>
    exact ⟨_, _, exec_of_execNext (.decoderReset hfd), fdAt_setFd_same hfd, rfl, rfl, rfl, rfl⟩

end Sys2Proof.Machine
end

section
/-!
PROOF. The link operations FD_OPEN, FD_CLOSE and FD_TIMEOUT (41_link_events.md R170, R171, R173), and the outcomes of a poll
(R174): none is refused, and with a dutiful writer all complete.
-/

namespace Sys2Proof.Machine

/-! The three operations. -/

/-- Settles O13, from the one ending of an FD_TIMEOUT on an existing decoder. -/
theorem timeoutIsIdentity : Obligations.TimeoutIsIdentity := by
  intro s src hsrc
  obtain ⟨fd, hfd⟩ := fdAt_of_lt hsrc
  exact exec_of_execNext (.timeout hfd)

/-- Settles O14: FD_OPEN has one ending without a connection, and its refusal with one. -/
theorem openConnectsWithClearedCounters : Obligations.OpenConnectsWithClearedCounters :=
  fun _ _ _ hfd => ⟨fun hconn => exec_of_execNext (.opened hfd hconn), exec_fdOpen_alreadyConnected hfd⟩

/-- Settles O15, from the one ending of an FD_CLOSE on an existing decoder. -/
theorem closeDiscardsPartialFrame : Obligations.CloseDiscardsPartialFrame :=
  fun _ _ _ hfd => exec_of_execNext (.closed hfd)

/-! What the bytes of a chunk keep. -/

/-- Source `src` exists and has a connection, so that it takes bytes (40_frame_decoder.md R130). -/
def Connected (src : Nat) (s : State) : Prop :=
  ∃ fd, s.fdAt src = some fd ∧ fd.conn = true

/-- A byte leaves its source connected, whether it completes a frame or not. -/
theorem ExecNext.connected_fdByte {src : Nat} {b : Byte} {s t : State} (h : ExecNext (.fdByte src b) s t) :
    Connected src t := by
  cases h with
  | byteStored hfd hconn => exact ⟨_, fdAt_setFd_same hfd, by rw [stored_conn, hconn]⟩
  | byteCompletes hfd hconn =>
    refine ⟨_, fdAt_setFd_same (by rw [State.fdAt, commandState_fds]; exact hfd), ?_⟩
    rw [clearCounters_conn, stored_conn, hconn]

/-- A writer that does its duty goes on doing it, whatever operation writes (60_exceptions.md R270). -/
theorem ExecNext.dutiful {i : Instr} {s t : State} (h : ExecNext i s t) (hwriter : s.writer = .dutiful) :
    t.writer = .dutiful := by
  cases h with
  | byteCompletes => exact commandState_dutiful hwriter
  | encoded | pixelsEncoded => simp [hwriter]
  | timeout | opened | byteStored | closed | tableWritten | decoderReset | blockReset | pixelsIgnored
  | commandIgnored => exact hwriter

/-! Operations that are not refused. -/

/-- From `s` an outcome is a next state, or is stuck on a writer that does not do its duty. -/
def CompletesIfDutiful (s : State) (r : Result) : Prop :=
  (∃ t, r = .next t) ∨ ∃ f, r = .fault f ∧ s.writer ≠ .dutiful

theorem CompletesIfDutiful.not_refused {s : State} {r : Result} (h : CompletesIfDutiful s r) (e : Refusal) :
    r ≠ .refused e := by
  obtain ⟨t, rfl⟩ | ⟨f, rfl, -⟩ := h
  · exact nofun
  · exact nofun

theorem CompletesIfDutiful.next {s : State} {r : Result} (h : CompletesIfDutiful s r) (hwriter : s.writer = .dutiful) :
    ∃ t, r = .next t :=
  h.resolve_right fun ⟨_, _, hn⟩ => hn hwriter

/-- An operation alone is a run of one operation. -/
theorem completesIfDutiful_singleton {i : Instr} {s t : State} (h : ExecNext i s t) :
    CompletesIfDutiful s (runOps [i] s) :=
  .inl ⟨t, by rw [runOps, exec_of_execNext h, andThen_next, runOps]⟩

/-- A connected decoder takes every byte; only the write of an accepted frame that the byte completes can be stuck
(70_reset_and_hazards.md R290). -/
theorem Connected.fdByte {src : Nat} {s : State} (h : Connected src s) (b : Byte) :
    CompletesIfDutiful s (exec (.fdByte src b) s) := by
  obtain ⟨fd, hfd, hconn⟩ := h
  by_cases hlast : Completes fd b
  · by_cases hreturns : fd.hdrCmd = Config.cmdSetPixels → s.cfg.accepts fd.hdrAddr = true → s.writer.returns = true
    · exact .inl ⟨_, exec_of_execNext (.byteCompletes hfd hconn hlast hreturns)⟩
    · simp only [Classical.not_imp, Bool.not_eq_true] at hreturns
      obtain ⟨hcmd, haccept, hstuck⟩ := hreturns
      obtain ⟨-, hfault, -⟩ := execFdByte_eq (b := b) hfd hconn
      exact .inr ⟨_, hfault hlast hcmd haccept hstuck, fun hwriter => by simp [hwriter] at hstuck⟩
  · exact .inl ⟨_, exec_of_execNext (.byteStored hfd hconn hlast)⟩

/-- A connected decoder takes byte strings of any length: each byte leaves the connection and the writer as the next one
needs them (40_frame_decoder.md R139). -/
theorem Connected.runOps_fdBytes {src : Nat} {s : State} (h : Connected src s) (bytes : List Byte) :
    CompletesIfDutiful s (runOps (bytes.map (.fdByte src)) s) := by
  induction bytes generalizing s with
  | nil => exact .inl ⟨s, rfl⟩
  | cons b bytes ih =>
    rw [List.map_cons, runOps]
    obtain ⟨u, hexec⟩ | ⟨f, hexec, hwriter⟩ := h.fdByte b
    · have hnext := execNext_iff.mp hexec
      rw [hexec, andThen_next]
      exact (ih hnext.connected_fdByte).imp_right fun ⟨f, hf, hn⟩ => ⟨f, hf, mt hnext.dutiful hn⟩
    · exact .inr ⟨f, by rw [hexec, andThen_fault], hwriter⟩

/-- The operations of a poll's outcome meet their enable conditions, as the transport offers an outcome only while `conn`
allows it (41_link_events.md R174). -/
theorem PollOutcome.completesIfDutiful {s : State} {src : Nat} {fd : FD} {o : PollOutcome} (hfd : s.fdAt src = some fd)
    (hpossible : o.possible fd.conn = true) : CompletesIfDutiful s (runOps (o.ops src) s) := by
  cases o with
  | accepted =>
    have hconn : fd.conn = false := by simpa [PollOutcome.possible] using hpossible
    exact completesIfDutiful_singleton (.opened hfd hconn)
  | bytes x xs =>
    have hconnected : Connected src s := ⟨fd, hfd, hpossible⟩
    exact hconnected.runOps_fdBytes (x :: xs)
  | timedOut => exact completesIfDutiful_singleton (.timeout hfd)
  | ended | resetCalled => exact completesIfDutiful_singleton (.closed hfd)

/-- Settles O29, for each outcome that the transport can offer. -/
theorem pollOutcomesAreNeverRefused : Obligations.PollOutcomesAreNeverRefused := by
  intro s src fd o hfd hpossible
  have hcompletes := PollOutcome.completesIfDutiful hfd hpossible
  exact ⟨hcompletes.not_refused, hcompletes.next⟩

end Sys2Proof.Machine
end

section
/-!
PROOF. The gamma tables as storage: what LUT_WRITE stores, in what order writes may come, and which lookups an encode
records (42_gamma_lut.md R190 to R195, R198).
-/

namespace Sys2Proof.Machine

/-- The state with other table contents and everything else as before. -/
def State.withTables (s : State) (lut : Mem) : State :=
  { s with we := { s.we with lut := lut } }

theorem exec_lutWrite {c : BitVec 2} (hc : c ≠ 3#2) (v x : Byte) (s : State) :
    exec (.lutWrite c v x) s = .next (s.withTables (s.we.lut.write (lutAddr c v) x)) :=
  exec_of_execNext (.tableWritten hc)

/-- Every table entry has an address of its own (20_memory.md R68). -/
theorem lutAddr_inj {c c' : BitVec 2} {v v' : Byte} : lutAddr c v = lutAddr c' v' ↔ c = c' ∧ v = v' := by
  simp only [lutAddr_eq]
  constructor
  · intro h
    have hv := v.isLt
    have hv' := v'.isLt
    exact ⟨BitVec.eq_of_toNat_eq (by omega), BitVec.eq_of_toNat_eq (by omega)⟩
  · rintro ⟨rfl, rfl⟩
    rfl

/-- In a canonical memory, writes of two cells give one result in either order. -/
theorem write_comm {size a b : Nat} {x y : Byte} {m : Mem} (hm : m.wf size = true) (ha : a < size) (hb : b < size)
    (hab : a ≠ b) : (m.write a x).write b y = (m.write b y).write a x := by
  refine ext_of_wf (wf_write hb (wf_write ha hm)) (wf_write ha (wf_write hb hm)) fun k => ?_
  simp only [read_write]
  split
  · next hkb => rw [if_neg (by omega)]
  · rfl

/-- Settles O31, by the laws of one write in a memory. -/
theorem lutWriteStoresOneEntry : Obligations.LutWriteStoresOneEntry := by
  intro s c v val
  refine ⟨fun hc => ⟨s.we.lut.write (lutAddr c v) val, exec_lutWrite hc v val s, ?_, fun a ha => ?_⟩, fun hc => ?_⟩
  · rw [← lutAddr_eq, read_write_same]
  · exact read_write_other val (by rwa [lutAddr_eq])
  · exact if_pos hc

/-- Settles O32: the two writes are of different cells of a canonical memory. -/
theorem lutWritesOfDifferentEntriesCommute : Obligations.LutWritesOfDifferentEntriesCommute := by
  intro s c c' v v' x x' hwf hc hc' hne
  have haddr : lutAddr c v ≠ lutAddr c' v' := by simpa [lutAddr_inj] using hne
  have hcomm := write_comm (x := x) (y := x') hwf (lutAddr_lt hc v) (lutAddr_lt hc' v') haddr
  refine ⟨s.withTables ((s.we.lut.write (lutAddr c v) x).write (lutAddr c' v') x'), ?_, ?_⟩
  · simp [runOps, exec_lutWrite hc, exec_lutWrite hc', State.withTables]
  · simp [runOps, exec_lutWrite hc, exec_lutWrite hc', State.withTables, hcomm]

/-! Runs of table writes. -/

/-- The write that gives an entry its byte under the tables `g`. -/
def entryWrite (g : BitVec 2 → Byte → Byte) (c : BitVec 2) (v : Byte) : Instr :=
  .lutWrite c v (g c v)

/-- Every operation writes an entry of tables 0 to 2, with its byte under `g`. -/
def TableWrites (g : BitVec 2 → Byte → Byte) (ops : List Instr) : Prop :=
  ∀ i ∈ ops, ∃ c v, c ≠ 3#2 ∧ i = entryWrite g c v

/-- What writes of entries under the tables `g` make of the table memory `m`, whatever their order. -/
structure TablesWritten (g : BitVec 2 → Byte → Byte) (ops : List Instr) (m m' : Mem) : Prop where
  written : ∀ c v, entryWrite g c v ∈ ops → m'.read (lutAddr c v) = some (g c v)
  kept : ∀ a, (∀ c v, entryWrite g c v ∈ ops → a ≠ lutAddr c v) → m'.read a = m.read a
  wf : m.wf Config.lutCap = true → m'.wf Config.lutCap = true

theorem TablesWritten.nil (g : BitVec 2 → Byte → Byte) (m : Mem) : TablesWritten g [] m m where
  written := by simp
  kept _ _ := rfl
  wf := id

/-- One write before the others: its entry is written again with the same byte, or kept. -/
theorem TablesWritten.cons {g : BitVec 2 → Byte → Byte} {c : BitVec 2} {v : Byte} {ops : List Instr} {m m' : Mem}
    (hc : c ≠ 3#2) (h : TablesWritten g ops (m.write (lutAddr c v) (g c v)) m') :
    TablesWritten g (entryWrite g c v :: ops) m m' where
  written d w hmem := by
    by_cases hrest : entryWrite g d w ∈ ops
    · exact h.written d w hrest
    · have hhead := (List.mem_cons.mp hmem).resolve_right hrest
      obtain ⟨rfl, rfl, -⟩ := Instr.lutWrite.inj hhead
      rw [h.kept, read_write_same]
      intro d' w' hmem' haddr
      obtain ⟨rfl, rfl⟩ := lutAddr_inj.mp haddr
      exact hrest hmem'
  kept a ha := by
    rw [h.kept a fun d w hmem => ha d w (List.mem_cons_of_mem _ hmem),
      read_write_other _ (ha c v List.mem_cons_self)]
  wf hm := h.wf (wf_write (lutAddr_lt hc v) hm)

/-- A run of table writes completes and changes the tables only. -/
theorem runOps_tableWrites {g : BitVec 2 → Byte → Byte} {ops : List Instr} (hops : TableWrites g ops) (s : State) :
    ∃ lut, runOps ops s = .next (s.withTables lut) ∧ TablesWritten g ops s.we.lut lut := by
  induction ops generalizing s with
  | nil => exact ⟨s.we.lut, rfl, .nil g _⟩
  | cons i ops ih =>
    obtain ⟨hi, hrest⟩ := List.forall_mem_cons.mp hops
    obtain ⟨c, v, hc, rfl⟩ := hi
    obtain ⟨lut, hrun, hlut⟩ := ih hrest (s.withTables (s.we.lut.write (lutAddr c v) (g c v)))
    refine ⟨lut, ?_, .cons hc hlut⟩
    rw [runOps, entryWrite, exec_lutWrite hc, andThen_next, hrun]
    rfl

/-- Writes of the same entries make the same of a canonical table memory (42_gamma_lut.md R194). -/
theorem TablesWritten.unique {g : BitVec 2 → Byte → Byte} {ops ops' : List Instr} {m lut lut' : Mem}
    (h : TablesWritten g ops m lut) (h' : TablesWritten g ops' m lut') (hops : ∀ i, i ∈ ops ↔ i ∈ ops')
    (hm : m.wf Config.lutCap = true) : lut = lut' := by
  refine ext_of_wf (h.wf hm) (h'.wf hm) fun a => ?_
  by_cases ha : ∃ c v, entryWrite g c v ∈ ops ∧ a = lutAddr c v
  · obtain ⟨c, v, hmem, rfl⟩ := ha
    rw [h.written c v hmem, h'.written c v ((hops _).mp hmem)]
  · push Not at ha
    rw [h.kept a ha, h'.kept a fun c v hmem => ha c v ((hops _).mpr hmem)]

/-! The writes that load three tables. -/

/-- Three tables by channel number. -/
def tablesOf (fR fG fB : Byte → Byte) (c : BitVec 2) : Byte → Byte :=
  if c = chanR then fR else if c = chanG then fG else fB

theorem mem_tableOps {c : BitVec 2} {f : Byte → Byte} {i : Instr} :
    i ∈ tableOps c f ↔ ∃ v, i = .lutWrite c v (f v) := by
  simp only [tableOps, List.mem_map, List.mem_range]
  constructor
  · rintro ⟨n, -, rfl⟩
    exact ⟨_, rfl⟩
  · rintro ⟨v, rfl⟩
    exact ⟨v.toNat, v.isLt, by rw [BitVec.ofNat_toNat, BitVec.setWidth_eq]⟩

theorem ne_three_iff_channel {c : BitVec 2} : c ≠ 3#2 ↔ c = chanR ∨ c = chanG ∨ c = chanB := by
  revert c
  decide

/-- The 768 writes are those of all entries of tables 0 to 2. -/
theorem mem_loadTablesOps {fR fG fB : Byte → Byte} {i : Instr} :
    i ∈ loadTablesOps fR fG fB ↔ ∃ c v, c ≠ 3#2 ∧ i = entryWrite (tablesOf fR fG fB) c v := by
  simp only [loadTablesOps, List.mem_append, mem_tableOps, ne_three_iff_channel]
  constructor
  · rintro ((⟨v, rfl⟩ | ⟨v, rfl⟩) | ⟨v, rfl⟩)
    · exact ⟨chanR, v, .inl rfl, rfl⟩
    · exact ⟨chanG, v, .inr (.inl rfl), rfl⟩
    · exact ⟨chanB, v, .inr (.inr rfl), rfl⟩
  · rintro ⟨c, v, rfl | rfl | rfl, rfl⟩
    · exact .inl (.inl ⟨v, rfl⟩)
    · exact .inl (.inr ⟨v, rfl⟩)
    · exact .inr ⟨v, rfl⟩

theorem tableWrites_loadTablesOps (fR fG fB : Byte → Byte) :
    TableWrites (tablesOf fR fG fB) (loadTablesOps fR fG fB) :=
  fun _ => mem_loadTablesOps.mp

/-- A memory written by the 768 writes holds the three tables. -/
theorem TablesWritten.reads {fR fG fB : Byte → Byte} {m lut : Mem}
    (h : TablesWritten (tablesOf fR fG fB) (loadTablesOps fR fG fB) m lut) (v : Byte) :
    lut.read (0 * 256 + v.toNat) = some (fR v) ∧ lut.read (1 * 256 + v.toNat) = some (fG v) ∧
      lut.read (2 * 256 + v.toNat) = some (fB v) := by
  have entry : ∀ c : BitVec 2, c ≠ 3#2 → lut.read (c.toNat * 256 + v.toNat) = some (tablesOf fR fG fB c v) := by
    intro c hc
    rw [← lutAddr_eq, h.written c v (mem_loadTablesOps.mpr ⟨c, v, hc, rfl⟩)]
  exact ⟨entry chanR (by decide), entry chanG (by decide), entry chanB (by decide)⟩

/-- The writes that load three tables, in any order, from canonical tables, end in one state (42_gamma_lut.md R194). -/
theorem runOps_perm_loadTablesOps {fR fG fB : Byte → Byte} {ops : List Instr} {s : State} {lut : Mem}
    (h : TablesWritten (tablesOf fR fG fB) (loadTablesOps fR fG fB) s.we.lut lut)
    (hperm : ops.Perm (loadTablesOps fR fG fB)) (hwf : s.we.lut.wf Config.lutCap = true) :
    runOps ops s = .next (s.withTables lut) := by
  have hops : TableWrites (tablesOf fR fG fB) ops :=
    fun i hi => tableWrites_loadTablesOps fR fG fB i (hperm.mem_iff.mp hi)
  obtain ⟨lut', hrun, hlut'⟩ := runOps_tableWrites hops s
  rw [hrun, hlut'.unique h (fun _ => hperm.mem_iff) hwf]

/-- Settles O33: the 768 writes are those of all entries, and what they do does not depend on their order. -/
theorem gammaBuildLoadsTables : Obligations.GammaBuildLoadsTables := by
  refine ⟨fun P s gR gG gB => ?_, fun s fR fG fB => ?_, rfl⟩
  · obtain ⟨lut, hrun, hlut⟩ := runOps_tableWrites (tableWrites_loadTablesOps _ _ _) s
    refine ⟨lut, hrun, hlut.reads, ?_, fun ops hperm hwf => runOps_perm_loadTablesOps hlut hperm hwf⟩
    rintro rfl v
    obtain ⟨hred, hgreen, -⟩ := hlut.reads v
    rw [hred, hgreen]
  · obtain ⟨lut, hrun, hlut⟩ := runOps_tableWrites (tableWrites_loadTablesOps fR fG fB) s
    exact ⟨lut, hrun, hlut.reads⟩

/-! Lookups of unwritten entries. -/

/-- With all entries written no lookup is recorded (42_gamma_lut.md R198). -/
theorem UnwrittenLookups.eq_nil_of_loaded {we : WE} {px : List Pixel} {new : List Fault}
    (h : UnwrittenLookups we px new) (hloaded : we.Loaded) : new = [] := by
  refine List.eq_nil_iff_forall_not_mem.mpr fun f hf => ?_
  obtain ⟨c, v, -, hread, p, -, hchannel⟩ := (h f).mp hf
  have hc : c ≠ 3#2 :=
    ne_three_iff_channel.mpr (hchannel.imp And.left (Or.imp And.left And.left))
  have hwritten := hloaded c hc v
  rw [lutAddr_eq, hread] at hwritten
  cases hwritten

/-- Settles O39: the faults of an encode are those of its unwritten lookups. -/
theorem unwrittenEntryReadIsRecorded : Obligations.UnwrittenEntryReadIsRecorded := by
  intro s px hn hwriter
  have hnew := unwrittenLookups_pixelFaults s.we px
  exact ⟨wireEncode px s, _, exec_of_execNext (.encoded hn hwriter), rfl, hnew, hnew.eq_nil_of_loaded⟩

end Sys2Proof.Machine
end

section
/-!
PROOF. The reference contents of the gamma tables, as nearest integers of a real value (42_gamma_lut.md R193, R195, R196).
-/

namespace Sys2Proof.Machine

/-! Integers near a real number. -/

/-- An integer near `x` is at most an integer near `y` if `x` exceeds `y` by less than the two distances leave of 1. -/
theorem nat_le_of_near {x y a b : ℝ} {m n : Nat} (hm : |x - m| ≤ a) (hn : |y - n| ≤ b) (hxy : x + a + b < y + 1) :
    m ≤ n := by
  obtain ⟨hmx, -⟩ := abs_le.mp hm
  obtain ⟨-, hny⟩ := abs_le.mp hn
  have hlt : (m : ℝ) < n + 1 := by linarith
  exact Nat.lt_succ_iff.mp (by exact_mod_cast hlt)

/-- A nearest integer of a number that is no tie is the only one. -/
theorem nat_eq_of_near {x : ℝ} {m n : Nat} (hm : |x - m| ≤ 1 / 2) (hn : |x - n| < 1 / 2) : m = n :=
  le_antisymm (nat_le_of_near hm (le_refl |x - n|) (by linarith)) (nat_le_of_near (le_refl |x - n|) hm (by linarith))

/-! The value to be rounded. -/

/-- The value whose nearest integer `gamma_fn(g, v)` is (42_gamma_lut.md R193). -/
noncomputable def gammaValue (g : ℝ) (v : Byte) : ℝ :=
  255 * ((v.toNat : ℝ) / 255) ^ g

/-- A reference table for a positive exponent holds nearest integers. -/
theorem isGammaTable_real_iff {g : ℝ} (hg : 0 < g) {f : Byte → Byte} :
    IsGammaTable (.real g) f ↔ ∀ v, |gammaValue g v - (f v).toNat| ≤ 1 / 2 :=
  forall_congr' fun _ => ⟨fun h => h hg, fun h _ => h⟩

theorem byteRatio_nonneg (v : Byte) : 0 ≤ (v.toNat : ℝ) / 255 := by positivity

theorem byteRatio_le_one (v : Byte) : (v.toNat : ℝ) / 255 ≤ 1 := by
  rw [div_le_one (by norm_num)]
  exact_mod_cast Nat.le_of_lt_succ v.isLt

theorem gammaValue_one (v : Byte) : gammaValue 1 v = v.toNat := by
  rw [gammaValue, Real.rpow_one, mul_div_cancel₀ _ (by norm_num)]

theorem gammaValue_first {g : ℝ} (hg : 0 < g) : gammaValue g 0 = 0 := by
  simp [gammaValue, Real.zero_rpow hg.ne']

theorem gammaValue_last (g : ℝ) : gammaValue g 255 = 255 := by
  simp [gammaValue]

/-- The value lies in `[0, 255]`, so the clamp of R193 never acts (42_gamma_lut.md R196). -/
theorem gammaValue_mem {g : ℝ} (hg : 0 < g) (v : Byte) : 0 ≤ gammaValue g v ∧ gammaValue g v ≤ 255 := by
  have hlow := Real.rpow_nonneg (byteRatio_nonneg v) g
  have hhigh := Real.rpow_le_one (byteRatio_nonneg v) (byteRatio_le_one v) hg.le
  unfold gammaValue
  constructor <;> linarith

theorem gammaValue_lt {g : ℝ} (hg : 0 < g) {v w : Byte} (h : v.toNat < w.toNat) :
    gammaValue g v < gammaValue g w := by
  have hbase : (v.toNat : ℝ) / 255 < (w.toNat : ℝ) / 255 := by gcongr
  have hpow := Real.rpow_lt_rpow (byteRatio_nonneg v) hbase hg
  unfold gammaValue
  linarith

/-- A larger exponent gives a smaller value, as the base is at most 1. -/
theorem gammaValue_anti {g g' : ℝ} (hg : 0 < g) (hle : g ≤ g') (v : Byte) : gammaValue g' v ≤ gammaValue g v := by
  have hpow := Real.rpow_le_rpow_of_exponent_ge' (byteRatio_nonneg v) (byteRatio_le_one v) hg.le hle
  unfold gammaValue
  linarith

/-! Reference tables. -/

section table
variable {g : ℝ} {f : Byte → Byte}

/-- Where the value is itself a byte, the table holds that byte. -/
theorem IsGammaTable.eq_of_value (hg : 0 < g) (hf : IsGammaTable (.real g) f) {v n : Byte}
    (h : gammaValue g v = n.toNat) : f v = n := by
  have hnear := (isGammaTable_real_iff hg).mp hf v
  exact BitVec.eq_of_toNat_eq (nat_eq_of_near hnear (by rw [h, sub_self, abs_zero]; norm_num))

/-- Of two different values at most one is at a given tie, so whatever is taken at ties keeps the order. -/
theorem IsGammaTable.mono (hg : 0 < g) (hf : IsGammaTable (.real g) f) {v w : Byte} (h : v.toNat ≤ w.toNat) :
    (f v).toNat ≤ (f w).toNat := by
  have hnear := (isGammaTable_real_iff hg).mp hf
  obtain heq | hlt := h.eq_or_lt
  · rw [BitVec.eq_of_toNat_eq heq]
  · exact nat_le_of_near (hnear v) (hnear w) (by linarith [gammaValue_lt hg hlt])

theorem IsGammaTable.le_self (hg : 1 < g) (hf : IsGammaTable (.real g) f) (v : Byte) : (f v).toNat ≤ v.toNat := by
  have hnear := (isGammaTable_real_iff (one_pos.trans hg)).mp hf v
  have hvalue := gammaValue_one v ▸ gammaValue_anti one_pos hg.le v
  exact nat_le_of_near hnear (y := v.toNat) (b := 0) (by simp) (by linarith)

theorem IsGammaTable.self_le (hg : 0 < g) (hg1 : g < 1) (hf : IsGammaTable (.real g) f) (v : Byte) :
    v.toNat ≤ (f v).toNat := by
  have hnear := (isGammaTable_real_iff hg).mp hf v
  have hvalue := gammaValue_one v ▸ gammaValue_anti hg hg1.le v
  exact nat_le_of_near (x := v.toNat) (a := 0) (by simp) hnear (by linarith)

end table

/-- The one reference table for exponent 1 (42_gamma_lut.md R195). -/
theorem IsGammaTable.eq_id {f : Byte → Byte} (hf : IsGammaTable (.real 1) f) : f = id :=
  funext fun v => hf.eq_of_value one_pos (gammaValue_one v)

/-- Settles O34: the value for exponent 1 is the byte itself. -/
theorem exponentOneIsIdentity : Obligations.ExponentOneIsIdentity := by
  refine ⟨fun f hf v => congrFun hf.eq_id v, fun P => ?_⟩
  rw [gammaOps, (P.gammaFn.allowed (.real 1)).eq_id, lutIdOps]

/-- Settles O35, from the same properties of the value that is rounded. -/
theorem referenceContentsProperties : Obligations.ReferenceContentsProperties := by
  intro g f hg hf
  exact ⟨hf.eq_of_value hg (by simpa using gammaValue_first hg), hf.eq_of_value hg (by simpa using gammaValue_last g),
    fun _ _ => hf.mono hg, hf.le_self, fun hg1 => hf.self_le hg hg1, gammaValue_mem hg⟩

end Sys2Proof.Machine
end

section
/-!
PROOF. The printed table for exponent 2.2 (95_test_vectors.md T31): which byte is nearest is decided between integers, by
fifth powers.
-/

namespace Sys2Proof.Machine

/-- The fifth power of the value for 2.2 = 11/5 is rational. -/
theorem gammaValue_pow_five (v : Byte) : gammaValue (11 / 5) v ^ 5 = (v.toNat : ℝ) ^ 11 / 255 ^ 6 := by
  have hpow : (((v.toNat : ℝ) / 255) ^ (11 / 5 : ℝ)) ^ 5 = ((v.toNat : ℝ) / 255) ^ 11 := by
    rw [← Real.rpow_mul_natCast (byteRatio_nonneg v), ← Real.rpow_natCast]
    norm_num
  rw [gammaValue, mul_pow, hpow]
  ring

/-- `n` is nearest to the value for 2.2 if `(n - 1/2)^5` and `(n + 1/2)^5` enclose its fifth power. -/
theorem near_of_pow_five {v : Byte} {n : Nat} (hlow : (2 * n - 1 : ℤ) ^ 5 * 255 ^ 6 < 32 * (v.toNat : ℤ) ^ 11)
    (hhigh : 32 * (v.toNat : ℤ) ^ 11 < (2 * n + 1 : ℤ) ^ 5 * 255 ^ 6) :
    |gammaValue (11 / 5) v - n| < 1 / 2 := by
  have hodd : Odd 5 := by decide
  have hlow' : (2 * n - 1 : ℝ) ^ 5 * 255 ^ 6 < 32 * (v.toNat : ℝ) ^ 11 := by exact_mod_cast hlow
  have hhigh' : 32 * (v.toNat : ℝ) ^ 11 < (2 * n + 1 : ℝ) ^ 5 * 255 ^ 6 := by exact_mod_cast hhigh
  have hbelow : (n - 1 / 2 : ℝ) < gammaValue (11 / 5) v := by
    rw [← hodd.pow_lt_pow, gammaValue_pow_five, lt_div_iff₀ (by norm_num)]
    linarith
  have habove : gammaValue (11 / 5) v < n + 1 / 2 := by
    rw [← hodd.pow_lt_pow, gammaValue_pow_five, div_lt_iff₀ (by norm_num)]
    linarith
  rw [abs_lt]
  constructor <;> linarith

/-- The printed bytes pass the integer test, all 256 of them. -/
theorem gamma22_encloses : ∀ v : Byte,
    (2 * (gamma22 v).toNat - 1 : ℤ) ^ 5 * 255 ^ 6 < 32 * (v.toNat : ℤ) ^ 11 ∧
      32 * (v.toNat : ℤ) ^ 11 < (2 * (gamma22 v).toNat + 1 : ℤ) ^ 5 * 255 ^ 6 := by
  decide

/-- No value for 2.2 is a tie, and the printed bytes are the nearest integers. -/
theorem gamma22_near (v : Byte) : |gammaValue (11 / 5) v - (gamma22 v).toNat| < 1 / 2 :=
  let ⟨hlow, hhigh⟩ := gamma22_encloses v
  near_of_pow_five hlow hhigh

/-- Settles O36: the printed bytes are nearest integers, and at no tie. -/
theorem printedTableIsGamma22 : Obligations.PrintedTableIsGamma22 := by
  have hg : (0 : ℝ) < 11 / 5 := by norm_num
  refine ⟨(isGammaTable_real_iff hg).mpr fun v => (gamma22_near v).le, fun f hf v => ?_⟩
  exact BitVec.eq_of_toNat_eq (nat_eq_of_near ((isGammaTable_real_iff hg).mp hf v) (gamma22_near v))

end Sys2Proof.Machine
end

section
/-!
PROOF. The wire encoder (43_wire_encoder.md): what WE_ENCODE sends, writes and returns (R210 to R221), the laws of the buffer
it sends (R222), and that the result of a serial write reaches its caller only (R219).
-/

namespace Sys2Proof.Machine

/-- An admitted encode whose write returns completes (60_exceptions.md R270). -/
theorem exec_weEncode {px : List Pixel} {s : State} (hn : px.length ≤ 21845) (hwriter : s.writer.returns = true) :
    exec (.weEncode px) s = .next (wireEncode px s) :=
  exec_of_execNext (.encoded hn hwriter)

/-- What an encode changes, field by field, with the buffer in the words of the statements. -/
theorem wireEncode_eq (px : List Pixel) (s : State) : wireEncode px s =
    { s with
      we := { s.we with
        out := (wireEncode px s).we.out
        outLen := BitVec.ofNat 17 (4 + 4 * px.length) }
      trace := s.trace ++ [.serialWrite (specBuffer s.cfg.colorOrder s.we.gammaApply px) (4 + 4 * px.length)]
      returns := s.returns ++ [Config.serialOk s.draws]
      faults := (wireEncode px s).faults
      draws := s.draws + 1
      writer := s.writer.afterWrite } := by
  rw [← wireBuffer_eq]
  rfl

/-- Settles O37, with the bytes that the lookups give as `g`. -/
theorem encodeWritesPreambleAndRecords : Obligations.EncodeWritesPreambleAndRecords := by
  intro s px
  refine ⟨fun hmany => if_pos hmany, fun hn hblocked => ?_, fun hn hwriter => ?_⟩
  · exact (execWeEncode_eq s hn).trans (if_neg (by simp [hblocked]))
  · have heffect := encodeEffect_wireEncode px s
    exact ⟨s.we.gammaApply, _, _, _, gammaApply_agrees s.we,
      (exec_weEncode hn hwriter).trans (congrArg _ (wireEncode_eq px s)), heffect.out⟩

/-- Settles O38: the effect of an encode of no pixels. -/
theorem emptyEncodeSendsPreambleOnly : Obligations.EmptyEncodeSendsPreambleOnly := by
  intro s hwriter
  have heffect := encodeEffect_wireEncode [] s
  exact ⟨_, exec_weEncode (Nat.zero_le _) hwriter, heffect.outLen,
    fun k hk => (heffect.out_nil k).trans (if_pos hk), rfl, heffect.faults_nil⟩

/-- Settles O43: each draw is an encode of its one pixel. -/
theorem diagnosticPixelIsOneEncode : Obligations.DiagnosticPixelIsOneEncode := by
  intro P s hwriter
  have hone (p : Pixel) : ∃ t, runOps [.weEncode [p]] s = .next t ∧ exec (.weEncode [p]) s = .next t := by
    have hexec : exec (.weEncode [p]) s = .next (wireEncode [p] s) := exec_weEncode (by simp) hwriter
    exact ⟨_, by rw [runOps, hexec, andThen_next, runOps], hexec⟩
  exact ⟨hone _, hone _, hone _⟩

/-! The laws of the buffer. -/

/-- The records of a pixel sequence (30_encoding.md R96). -/
def wireRecords (order : ColorOrder) (we : WE) (px : List Pixel) : List Byte :=
  px.flatMap fun p => record order (we.correct p)

theorem wireBuffer_eq_wireRecords (order : ColorOrder) (we : WE) (px : List Pixel) :
    wireBuffer order we px = [0, 0, 0, 0] ++ wireRecords order we px := rfl

theorem wireRecords_append (order : ColorOrder) (we : WE) (px qx : List Pixel) :
    wireRecords order we (px ++ qx) = wireRecords order we px ++ wireRecords order we qx :=
  List.flatMap_append

/-- Settles O41: the records of a concatenation are those of its parts. -/
theorem recordsAreIndependent : Obligations.RecordsAreIndependent := by
  intro s px qx hn hwriter
  have hlen := List.length_append (as := px) (bs := qx)
  refine ⟨_, _, _, wireRecords s.cfg.colorOrder s.we px, wireRecords s.cfg.colorOrder s.we qx,
    exec_weEncode (by omega) hwriter, exec_weEncode (by omega) hwriter, exec_weEncode hn hwriter, rfl, rfl, ?_⟩
  rw [wireEncode_trace, wireBuffer_eq_wireRecords, wireRecords_append, ← List.append_assoc, hlen]
  rfl

/-- Byte `j` of block `i`, where each element gives a block of `w` bytes. -/
theorem getElem?_flatMap_blocks {α β : Type} {f : α → List β} {w : Nat} (hf : ∀ a, (f a).length = w) {j : Nat}
    (hj : j < w) {l : List α} {i : Nat} {a : α} (ha : l[i]? = some a) : (l.flatMap f)[w * i + j]? = (f a)[j]? := by
  induction l generalizing i with
  | nil => simp at ha
  | cons b l ih =>
    rw [List.flatMap_cons]
    cases i with
    | zero =>
      obtain rfl : b = a := by simpa using ha
      rw [Nat.mul_zero, Nat.zero_add, List.getElem?_append_left (by rwa [hf])]
    | succ i =>
      have hblock : w * (i + 1) + j - w = w * i + j := by
        rw [Nat.mul_succ]
        omega
      rw [List.getElem?_append_right (by rw [hf, Nat.mul_succ]; omega), hf, hblock]
      exact ih (by simpa using ha)

/-- The record of pixel `i` stands at `4 + 4*i` (43_wire_encoder.md R210). -/
theorem wireBuffer_record {order : ColorOrder} {we : WE} {px : List Pixel} {i j k : Nat} {p : Pixel}
    (hp : px[i]? = some p) (hj : j < 4) (hk : k = 4 + 4 * i + j) :
    (wireBuffer order we px)[k]? = (record order (we.correct p))[j]? := by
  have hpre : [(0 : Byte), 0, 0, 0].length = 4 := rfl
  rw [wireBuffer_eq_wireRecords, List.getElem?_append_right (by omega), hpre, show k - 4 = 4 * i + j by omega]
  exact getElem?_flatMap_blocks (fun _ => record_length ..) hj hp

/-- The four bit pairs of a control byte (43_wire_encoder.md R213). -/
theorem controlByte_bits (q : Pixel) :
    (controlByte q).extractLsb' 6 2 = 3#2 ∧ (controlByte q).extractLsb' 4 2 = ~~~ q.r.extractLsb' 6 2 ∧
      (controlByte q).extractLsb' 2 2 = ~~~ q.g.extractLsb' 6 2 ∧
      (controlByte q).extractLsb' 0 2 = ~~~ q.b.extractLsb' 6 2 := by
  have pairs : ∀ x y z : BitVec 2, (Config.ctrlTop ++ ~~~ (x ++ y ++ z)).extractLsb' 6 2 = 3#2 ∧
      (Config.ctrlTop ++ ~~~ (x ++ y ++ z)).extractLsb' 4 2 = ~~~ x ∧
      (Config.ctrlTop ++ ~~~ (x ++ y ++ z)).extractLsb' 2 2 = ~~~ y ∧
      (Config.ctrlTop ++ ~~~ (x ++ y ++ z)).extractLsb' 0 2 = ~~~ z := by decide
  exact pairs ..

theorem controlByte_ne_zero (q : Pixel) : controlByte q ≠ 0 := by
  intro hzero
  obtain ⟨htop, -⟩ := controlByte_bits q
  rw [hzero] at htop
  exact absurd htop (by decide)

/-- The bytes of a record, by colour order (30_encoding.md R96, 43_wire_encoder.md R215): green is the middle colour byte in
either. -/
theorem record_bytes (order : ColorOrder) (q : Pixel) : ∃ x z, record order q = [controlByte q, x, q.g, z] ∧
    (order = .rgb → x = q.r ∧ z = q.b) ∧ (order = .bgr → x = q.b ∧ z = q.r) := by
  cases order with
  | rgb => exact ⟨q.r, q.b, rfl, fun _ => ⟨rfl, rfl⟩, nofun⟩
  | bgr => exact ⟨q.b, q.r, rfl, nofun, fun _ => ⟨rfl, rfl⟩⟩

/-- Identity tables correct nothing (42_gamma_lut.md R195). -/
theorem WE.Holds.correct_of_identity {we : WE} (h : we.Holds fun _ v => v) (p : Pixel) : we.correct p = p := by
  have happly {c : BitVec 2} (hc : c ≠ 3#2) (v : Byte) : we.gammaApply c v = v := by
    rw [WE.gammaApply, h c hc v, Option.getD_some]
  rw [WE.correct, happly (by decide), happly (by decide), happly (by decide)]

/-- Every four bytes in a row that do not start the buffer contain a control byte, which is not zero (law W-f). -/
theorem wireBuffer_no_zero_run {order : ColorOrder} {we : WE} {px : List Pixel} {k : Nat} (hk : 0 < k)
    (hend : k + 3 < (wireBuffer order we px).length) :
    ∃ d, d < 4 ∧ (wireBuffer order we px)[k + d]? ≠ some 0 := by
  rw [wireBuffer_length, bufferLen, Config.preLen, Config.recLen] at hend
  obtain ⟨i, d, hd, hctrl⟩ : ∃ i d, d < 4 ∧ k + d = 4 + 4 * i :=
    ⟨(k + 3) / 4 - 1, 4 * ((k + 3) / 4) - k, by omega, by omega⟩
  have hp := List.getElem?_eq_getElem (l := px) (i := i) (by omega)
  refine ⟨d, hd, ?_⟩
  rw [wireBuffer_record hp (j := 0) (by decide) hctrl]
  simpa [record] using controlByte_ne_zero _

/-- Settles O40: the laws of a record at its place in the buffer, and a control byte in every run of four bytes. -/
theorem encoderBufferLaws : Obligations.EncoderBufferLaws := by
  intro s px hn hwriter
  refine ⟨_, wireBuffer s.cfg.colorOrder s.we px, exec_weEncode hn hwriter, rfl, bufferLen_toNat hn,
    wireBuffer_length .., fun _ => wireBuffer_preamble, fun i hi => ?_, fun k hk hend => ?_⟩
  · have hp := List.getElem?_eq_getElem hi
    obtain ⟨x, z, hrecord, hrgb, hbgr⟩ := record_bytes s.cfg.colorOrder (s.we.correct px[i])
    obtain ⟨htop, hred, hgreen, hblue⟩ := controlByte_bits (s.we.correct px[i])
    have hbyte {j k : Nat} (hj : j < 4) (hk : k = 4 + 4 * i + j) := hrecord ▸ wireBuffer_record (we := s.we) hp hj hk
    refine ⟨_, x, _, z, hbyte (j := 0) (by omega) (by omega), hbyte (j := 1) (by omega) (by omega),
      hbyte (j := 2) (by omega) (by omega), hbyte (j := 3) (by omega) (by omega), htop, hgreen, fun horder => ?_,
      fun horder => ?_, fun hholds horder => ?_⟩
    · obtain ⟨rfl, rfl⟩ := hrgb horder
      exact ⟨hred, hblue⟩
    · obtain ⟨rfl, rfl⟩ := hbgr horder
      exact ⟨hred, hblue⟩
    · obtain ⟨rfl, rfl⟩ := hrgb horder
      rw [hp, hholds.correct_of_identity]
  · rintro ⟨h0, h1, h2, h3⟩
    obtain ⟨d, hd, hne⟩ := wireBuffer_no_zero_run hk hend
    match d with
    | 0 => exact hne h0
    | 1 => exact hne h1
    | 2 => exact hne h2
    | 3 => exact hne h3

/-! Drawn results. -/

/-- The state with other drawn results and another draw count. -/
def State.withResults (s : State) (returns : List Bool) (draws : Nat) : State :=
  { s with returns := returns, draws := draws }

@[simp] theorem withResults_cfg (s : State) (returns : List Bool) (draws : Nat) :
    (s.withResults returns draws).cfg = s.cfg := rfl

/-- States that differ in drawn results only are each the other with its own results. -/
theorem eq_withResults {s s' : State} (h : s.withoutResults = s'.withoutResults) :
    s' = s.withResults s'.returns s'.draws := by
  have hback := congrArg (State.withResults · s'.returns s'.draws) h
  exact hback.symm

/-- A command draws anew at most once, and reads no earlier draw. -/
theorem commandState_withResults (cfg : Config) (fd : FD) (s : State) (returns : List Bool) (draws : Nat) :
    ∃ returns' draws', commandState cfg fd (s.withResults returns draws) =
      (commandState cfg fd s).withResults returns' draws' := by
  unfold commandState
  dsimp only
  split
  · split
    · exact ⟨returns ++ [Config.serialOk draws], draws + 1, rfl⟩
    · exact ⟨returns, draws, rfl⟩
  · exact ⟨returns, draws, rfl⟩

/-- Every operation but RESET does with other results what it does without them. -/
theorem ExecNext.withResults {i : Instr} {s t : State} (h : ExecNext i s t) (hreset : ∀ src, i ≠ .reset src)
    (returns : List Bool) (draws : Nat) :
    ∃ returns' draws', ExecNext i (s.withResults returns draws) (t.withResults returns' draws') := by
  cases h with
  | timeout hfd => exact ⟨_, _, .timeout hfd⟩
  | opened hfd hconn => exact ⟨_, _, .opened hfd hconn⟩
  | byteStored hfd hconn hmore => exact ⟨_, _, .byteStored hfd hconn hmore⟩
  | @byteCompletes src b _ fd hfd hconn hlast hwriter =>
    obtain ⟨returns', draws', hcommand⟩ := commandState_withResults s.cfg (fd.stored b) s returns draws
    have hnext : ExecNext (.fdByte src b) (s.withResults returns draws) _ := .byteCompletes hfd hconn hlast hwriter
    rw [withResults_cfg, hcommand] at hnext
    exact ⟨returns', draws', hnext⟩
  | closed hfd => exact ⟨_, _, .closed hfd⟩
  | tableWritten hc => exact ⟨_, _, .tableWritten hc⟩
  | encoded hn hwriter => exact ⟨_, _, .encoded hn hwriter⟩
  | decoderReset | blockReset => exact absurd rfl (hreset _)
  | pixelsIgnored hfd haccept => exact ⟨_, _, .pixelsIgnored hfd haccept⟩
  | pixelsEncoded hfd haccept hwriter => exact ⟨_, _, .pixelsEncoded hfd haccept hwriter⟩
  | commandIgnored hfd => exact ⟨_, _, .commandIgnored hfd⟩

/-- Settles O42: the second state is the first with other results. -/
theorem writeResultAffectsNoState : Obligations.WriteResultAffectsNoState := by
  intro i s s' t hreset hsame hexec
  obtain ⟨returns, draws, hnext⟩ := (execNext_iff.mp hexec).withResults hreset s'.returns s'.draws
  rw [eq_withResults hsame]
  exact ⟨_, exec_of_execNext hnext, rfl⟩

end Sys2Proof.Machine
end

section
/-!
PROOF. How a source's bytes, cut in any way and mixed with timed-out polls, are reported (44_dataflow.md R244).
-/

namespace Sys2Proof.Machine

/-! Timed-out polls drop out. -/

@[simp] theorem deliveredTo_fdByte (src : Nat) (b : Byte) (ops : List Instr) :
    deliveredTo src (.fdByte src b :: ops) = b :: deliveredTo src ops := by
  simp [deliveredTo]

@[simp] theorem deliveredTo_fdTimeout (src k : Nat) (ops : List Instr) :
    deliveredTo src (.fdTimeout k :: ops) = deliveredTo src ops := by
  simp [deliveredTo]

/-- Timed-out polls of existing sources change nothing, so a run is that of the delivered bytes alone
(41_link_events.md R173). -/
theorem runOps_eq_deliveredTo {src : Nat} {ops : List Instr} {s : State}
    (hops : OnlyBytesAndTimeouts src s.fds.length ops) :
    runOps ops s = runOps ((deliveredTo src ops).map (.fdByte src)) s := by
  induction ops generalizing s with
  | nil => rfl
  | cons i ops ih =>
    obtain ⟨hi, hrest⟩ := List.forall_mem_cons.mp hops
    obtain ⟨b, rfl⟩ | ⟨k, hk, rfl⟩ := hi
    · rw [deliveredTo_fdByte, List.map_cons, runOps, runOps]
      cases hexec : exec (.fdByte src b) s with
      | next u =>
        have hlength : u.fds.length = s.fds.length := (execNext_iff.mp hexec).fds_length
        exact ih (by rwa [hlength])
      | fault | refused => rfl
    · rw [deliveredTo_fdTimeout, runOps, timeoutIsIdentity s k hk, andThen_next]
      exact ih hrest

/-! A byte string is the bytes of frames and an incomplete one in one way only. -/

/-- The length bytes of a frame that fits declare the length of its payload (30_encoding.md R94). -/
theorem declaredLength_eq {n : Nat} (h : n ≤ 65535) :
    (BitVec.ofNat 8 (n / 256)).toNat * 256 + (BitVec.ofNat 8 (n % 256)).toNat = n := by
  simp only [BitVec.toNat_ofNat]
  omega

/-- A byte string that begins with a whole frame is not the start of one (30_encoding.md R104). -/
theorem Frame.Fits.not_incomplete {f : Frame} (h : f.Fits) (rest : List Byte) : ¬ Incomplete (f.bytes ++ rest) := by
  rintro (hshort | ⟨a, c, hi, lo, more, hsplit, hlen⟩)
  · simp only [Frame.bytes, frameBytes, List.cons_append, List.length_cons] at hshort
    omega
  · simp only [Frame.bytes, frameBytes, List.cons_append, List.cons.injEq] at hsplit
    obtain ⟨-, -, rfl, rfl, rfl⟩ := hsplit
    rw [declaredLength_eq h, List.length_append] at hlen
    omega

/-- The frame a byte string begins with is determined, and so is what follows it: the header declares where it ends. -/
theorem Frame.Fits.bytes_append_inj {f f' : Frame} {rest rest' : List Byte} (h : f.Fits) (h' : f'.Fits)
    (heq : f.bytes ++ rest = f'.bytes ++ rest') : f = f' ∧ rest = rest' := by
  obtain ⟨a, c, payload⟩ := f
  obtain ⟨a', c', payload'⟩ := f'
  simp only [Frame.bytes, frameBytes, List.cons_append, List.cons.injEq] at heq
  obtain ⟨rfl, rfl, hhi, hlo, hpayload⟩ := heq
  have hlength : payload.length = payload'.length := by
    rw [← declaredLength_eq h, hhi, hlo, declaredLength_eq h']
  obtain ⟨rfl, rfl⟩ := List.append_inj hpayload hlength
  exact ⟨rfl, rfl⟩

/-- Two parses of one byte string have the same frames. -/
theorem frames_unique {frames frames' : List Frame} {tail tail' : List Byte} (hfit : ∀ f ∈ frames, f.Fits)
    (hfit' : ∀ f ∈ frames', f.Fits) (htail : Incomplete tail) (htail' : Incomplete tail')
    (heq : frames.flatMap Frame.bytes ++ tail = frames'.flatMap Frame.bytes ++ tail') : frames = frames' := by
  induction frames generalizing frames' with
  | nil =>
    cases frames' with
    | nil => rfl
    | cons f' frames' =>
      rw [List.flatMap_nil, List.nil_append, List.flatMap_cons, List.append_assoc] at heq
      exact absurd (heq ▸ htail) ((hfit' f' List.mem_cons_self).not_incomplete _)
  | cons f frames ih =>
    obtain ⟨hf, hframes⟩ := List.forall_mem_cons.mp hfit
    rw [List.flatMap_cons, List.append_assoc] at heq
    cases frames' with
    | nil =>
      rw [List.flatMap_nil, List.nil_append] at heq
      exact absurd (heq ▸ htail') (hf.not_incomplete _)
    | cons f' frames' =>
      obtain ⟨hf', hframes'⟩ := List.forall_mem_cons.mp hfit'
      rw [List.flatMap_cons, List.append_assoc] at heq
      obtain ⟨rfl, hrest⟩ := hf.bytes_append_inj hf' heq
      rw [ih hframes hframes' hrest]

/-- Settles O25: the run is that of the delivered bytes, whose one parse is the given one. -/
theorem connectionEventsAreThoseOfItsFrames : Obligations.ConnectionEventsAreThoseOfItsFrames := by
  intro s src fd g frames tail ops hfd hinv hconn hcnt htables hwriter hfit htail hops hdelivered
  obtain ⟨frames', tail', t, hparse, hfit', htail', hrun, htrace⟩ :=
    everyByteStringIsDecoded s src fd g (deliveredTo src ops) hfd hinv hconn hcnt htables hwriter
  have hframes : frames = frames' := frames_unique hfit hfit' htail htail' (hdelivered.symm.trans hparse)
  exact ⟨t, by rw [runOps_eq_deliveredTo hops, hrun], by rw [htrace, hframes]⟩

end Sys2Proof.Machine
end

section
/-!
PROOF. A handler has no access to a decoder: what FD_BYTE leaves of the decoders with any handler (44_dataflow.md R243).
-/

namespace Sys2Proof.Machine

/-- The command of a completed frame, whatever its handler, changes no decoder, configuration or input. -/
theorem runCommand_frame {h : Handler} {src : Nat} {fd : FD} {s t : State} (hrun : runCommand h src fd s = .next t) :
    t.cfg = s.cfg ∧ t.fds = s.fds ∧ t.input = s.input := by
  unfold runCommand at hrun
  split at hrun
  · obtain ⟨_, -, hhandler⟩ := onFd_eq_next.mp hrun
    exact runWeOps_frame (s := s.emit _) hhandler
  · obtain ⟨_, -, hnext⟩ := onFd_eq_next.mp hrun
    cases hnext
    exact ⟨rfl, rfl, rfl⟩

/-- A completion, whatever its handler, clears the counters of its decoder (40_frame_decoder.md R134). -/
theorem completeFrame_frame {h : Handler} {src : Nat} {fd : FD} {s t : State} (hfd : s.fdAt src = some fd)
    (hrun : completeFrame h src s = .next t) :
    t.cfg = s.cfg ∧ t.fds = s.fds.set src fd.clearCounters ∧ t.input = s.input := by
  rw [completeFrame, onFd_of_some hfd] at hrun
  obtain ⟨u, hcommand, hclear⟩ := andThen_eq_next.mp hrun
  obtain ⟨hcfg, hfds, hinput⟩ := runCommand_frame hcommand
  have hfd' : u.fdAt src = some fd := by rw [State.fdAt, hfds]; exact hfd
  rw [State.clearFd, onFd_of_some hfd'] at hclear
  cases hclear
  exact ⟨hcfg, by rw [setFd_fds, hfds, emit_fds], hinput⟩

/-- FD_BYTE answers a next state only on a connection, with any handler (40_frame_decoder.md R130). -/
theorem fdByteWith_connected {h : Handler} {src : Nat} {b : Byte} {s t : State}
    (hrun : fdByteWith h src b s = .next t) : Connected src s := by
  obtain ⟨fd, hfd, hbyte⟩ := onFd_eq_next.mp hrun
  refine ⟨fd, hfd, ?_⟩
  cases hconn : fd.conn with
  | true => rfl
  | false => simp [hconn] at hbyte

/-- What FD_BYTE leaves of the decoders, the configuration and the input is fixed by the byte, whatever the handler. -/
theorem fdByteWith_frame {h : Handler} {src : Nat} {b : Byte} {fd : FD} {s t : State} (hfd : s.fdAt src = some fd)
    (hconn : fd.conn = true) (hrun : fdByteWith h src b s = .next t) :
    t.cfg = s.cfg ∧ t.input = s.input ∧
      (Completes fd b → t.fds = s.fds.set src (fd.stored b).clearCounters) ∧
      (¬ Completes fd b → t.fds = s.fds.set src (fd.stored b)) := by
  obtain ⟨hcompletes, hstored⟩ := fdByteWith_split (b := b) h hfd hconn
  by_cases hlast : Completes fd b
  · rw [hcompletes hlast] at hrun
    obtain ⟨hcfg, hfds, hinput⟩ := completeFrame_frame (fdAt_setFd_same hfd) hrun
    refine ⟨hcfg, hinput, fun _ => ?_, fun hmore => absurd hlast hmore⟩
    rw [hfds, setFd_fds, List.set_set]
  · rw [hstored hlast] at hrun
    cases hrun
    exact ⟨rfl, rfl, fun hyes => absurd hyes hlast, fun _ => rfl⟩

/-- Settles O28: both handlers leave what the byte alone determines. -/
theorem handlerCannotChangeDecoders : Obligations.HandlerCannotChangeDecoders := by
  intro h h' src b s t t' hrun hrun'
  obtain ⟨fd, hfd, hconn⟩ := fdByteWith_connected hrun
  obtain ⟨hcfg, hinput, hlast, hmore⟩ := fdByteWith_frame hfd hconn hrun
  obtain ⟨hcfg', hinput', hlast', hmore'⟩ := fdByteWith_frame hfd hconn hrun'
  refine ⟨?_, hcfg.trans hcfg'.symm, hinput.trans hinput'.symm⟩
  by_cases hcompletes : Completes fd b
  · rw [hlast hcompletes, hlast' hcompletes]
  · rw [hmore hcompletes, hmore' hcompletes]

end Sys2Proof.Machine
end

section
/-!
PROOF. When an operation completes, is refused or is stuck (60_exceptions.md R250, 70_reset_and_hazards.md R290), and
the order of a byte, a close and an open presented together (60_exceptions.md R257).
-/

namespace Sys2Proof.Machine

/-! The three outcomes of an operation. -/

/-- An enabled operation whose write, if it makes one, returns has a next state (60_exceptions.md R250, R270). -/
theorem exists_execNext_of_enabled {i : Instr} {s : State} (henabled : Enabled i s)
    (hwriter : Writes i s → s.writer.returns = true) : ∃ t, ExecNext i s t := by
  cases i with
  | fdTimeout src =>
    obtain ⟨fd, hfd⟩ := fdAt_of_lt henabled
    exact ⟨_, .timeout hfd⟩
  | fdOpen src =>
    obtain ⟨fd, hfd, hconn⟩ := henabled
    exact ⟨_, .opened hfd hconn⟩
  | fdByte src b =>
    obtain ⟨fd, hfd, hconn⟩ := henabled
    by_cases hlast : Completes fd b
    · have hreturns (hcmd : fd.hdrCmd = Config.cmdSetPixels) (haccept : s.cfg.accepts fd.hdrAddr = true) :=
        hwriter ⟨fd, hfd, hconn, hlast, hcmd, haccept⟩
      exact ⟨_, .byteCompletes hfd hconn hlast hreturns⟩
    · exact ⟨_, .byteStored hfd hconn hlast⟩
  | fdClose src =>
    obtain ⟨fd, hfd⟩ := fdAt_of_lt henabled
    exact ⟨_, .closed hfd⟩
  | lutWrite c v val => exact ⟨_, .tableWritten henabled⟩
  | weEncode px => exact ⟨_, .encoded henabled (hwriter henabled)⟩
  | reset src =>
    cases src with
    | none => exact ⟨_, .blockReset⟩
    | some src =>
      obtain ⟨fd, hfd⟩ := fdAt_of_lt henabled
      exact ⟨_, .decoderReset hfd⟩
  | setPixels src addr len =>
    obtain ⟨fd, hfd⟩ := fdAt_of_lt henabled
    cases haccept : s.cfg.accepts addr with
    | false => exact ⟨_, .pixelsIgnored hfd haccept⟩
    | true => exact ⟨_, .pixelsEncoded hfd haccept (hwriter ⟨henabled, haccept⟩)⟩
  | cmdOther src addr cmd len =>
    obtain ⟨fd, hfd⟩ := fdAt_of_lt henabled
    exact ⟨_, .commandIgnored hfd⟩

/-- A source number out of range selects nothing (60_exceptions.md R251 E5). -/
theorem onFd_refused_of_not_lt {s : State} {src : Nat} (h : ¬ src < s.fds.length) (f : FD → Result) :
    ∃ r, s.onFd src f = .refused r :=
  ⟨_, onFd_of_none (List.getElem?_eq_none (Nat.not_lt.mp h)) f⟩

/-- An operation that is not enabled is refused: its decoder does not exist or has the wrong connection, or an operand is
out of range (60_exceptions.md R251). -/
theorem exec_refused_of_not_enabled {i : Instr} {s : State} (h : ¬ Enabled i s) : ∃ r, exec i s = .refused r := by
  cases i with
  | fdTimeout src | fdClose src | setPixels src addr len | cmdOther src addr cmd len =>
    exact onFd_refused_of_not_lt h _
  | fdOpen src =>
    cases hfd : s.fdAt src with
    | none => exact ⟨_, onFd_of_none hfd _⟩
    | some fd =>
      have hconn : fd.conn ≠ false := fun hclosed => h ⟨fd, hfd, hclosed⟩
      exact ⟨_, exec_fdOpen_alreadyConnected hfd (by simpa using hconn)⟩
  | fdByte src b =>
    cases hfd : s.fdAt src with
    | none => exact ⟨_, onFd_of_none hfd _⟩
    | some fd =>
      have hconn : fd.conn ≠ true := fun hopen => h ⟨fd, hfd, hopen⟩
      exact ⟨_, exec_fdByte_notConnected b hfd (by simpa using hconn)⟩
  | lutWrite c v val => exact ⟨_, if_pos (Classical.not_not.mp h)⟩
  | weEncode px => exact ⟨_, if_pos (Nat.not_le.mp h)⟩
  | reset src =>
    cases src with
    | none => exact absurd trivial h
    | some src => exact onFd_refused_of_not_lt h _

/-- An operation whose serial write never returns is stuck on it (70_reset_and_hazards.md R290). -/
theorem exec_blocked_of_writes {i : Instr} {s : State} (hwrites : Writes i s) (hstuck : s.writer.returns = false) :
    exec i s = .fault .serialWriterBlocked := by
  cases i with
  | fdByte src b =>
    obtain ⟨fd, hfd, hconn, hlast, hcmd, haccept⟩ := hwrites
    obtain ⟨-, hblocked, -⟩ := execFdByte_eq (b := b) hfd hconn
    exact hblocked hlast hcmd haccept hstuck
  | weEncode px => exact (execWeEncode_eq s hwrites).trans (if_neg (by simp [hstuck]))
  | setPixels src addr len =>
    obtain ⟨hsrc, haccept⟩ := hwrites
    obtain ⟨fd, hfd⟩ := fdAt_of_lt hsrc
    refine (setPixelsWith_reference hfd).trans ((if_pos haccept).trans ?_)
    exact (execWeEncode_eq _ (by simpa using pixelCount_le len)).trans (if_neg (by simp [hstuck]))
  | fdTimeout | fdOpen | fdClose | lutWrite | reset | cmdOther => exact hwrites.elim

/-- Settles O11: the next state, the refusal and the stuck write exclude each other, so a fault is the stuck write. -/
theorem completesExactlyWhenEnabled : Obligations.CompletesExactlyWhenEnabled := by
  intro i s
  have hnext (henabled : Enabled i s) (hwriter : Writes i s → s.writer.returns = true) : ∃ t, exec i s = .next t :=
    (exists_execNext_of_enabled henabled hwriter).imp fun _ => exec_of_execNext
  refine ⟨hnext, exec_refused_of_not_enabled, fun f hfault => ?_⟩
  have henabled : Enabled i s := by
    by_contra h
    obtain ⟨r, hrefused⟩ := exec_refused_of_not_enabled h
    cases hfault.symm.trans hrefused
  have hblocked : Writes i s ∧ s.writer.returns = false := by
    by_contra h
    obtain ⟨t, hcompletes⟩ := hnext henabled (by simpa using h)
    cases hfault.symm.trans hcompletes
  obtain ⟨hwrites, hstuck⟩ := hblocked
  cases hfault.symm.trans (exec_blocked_of_writes hwrites hstuck)
  exact ⟨rfl, hwrites, hstuck⟩

/-! A byte, a close and an open presented together. -/

/-- The decoder just closed has no connection and no partial frame (60_exceptions.md R260). -/
theorem fdAt_closeFd_same {src : Nat} {fd : FD} {s : State} (hfd : s.fdAt src = some fd) :
    (s.closeFd src fd).fdAt src = some { fd.clearCounters with conn := false } :=
  fdAt_setFd_same hfd

/-- A close and then an open of an existing decoder clear it and leave it connected (41_link_events.md R170, R171). -/
theorem runOps_close_open {src : Nat} {fd : FD} {s : State} (hfd : s.fdAt src = some fd) :
    runOps [.fdClose src, .fdOpen src] s =
      .next ((s.closeFd src fd).setFd src { fd.clearCounters with conn := true }) := by
  rw [runOps, exec_of_execNext (.closed hfd), andThen_next, runOps,
    exec_of_execNext (.opened (fdAt_closeFd_same hfd) rfl), andThen_next, runOps]
  rfl

/-- A byte, a close and an open presented together act in that order (60_exceptions.md R257). -/
theorem strobesOps_byte_close_open (src : Nat) (b : Byte) :
    Strobes.ops src ⟨false, some b, true, true, none, none⟩ = [.fdByte src b, .fdClose src, .fdOpen src] := rfl

/-- Settles O30: the byte leaves its decoder connected, and the close and the open then find it there. -/
theorem simultaneousByteCloseOpenOrder : Obligations.SimultaneousByteCloseOpenOrder := by
  intro s src fd b hfd hconn hwriter
  obtain ⟨u, hbyte⟩ := exists_execNext_of_enabled (i := .fdByte src b) ⟨fd, hfd, hconn⟩ hwriter
  obtain ⟨fdu, hfdu, -⟩ := hbyte.connected_fdByte
  have hexec : exec (.fdByte src b) s = .next u := exec_of_execNext hbyte
  have hrun : runOps (Strobes.ops src ⟨false, some b, true, true, none, none⟩) s =
      .next ((u.closeFd src fdu).setFd src { fdu.clearCounters with conn := true }) := by
    rw [strobesOps_byte_close_open, runOps, hexec, andThen_next, runOps_close_open hfdu]
  exact ⟨u, _, { fdu.clearCounters with conn := true }, hexec, hrun, rfl, fdAt_setFd_same (fdAt_closeFd_same hfdu),
    rfl, rfl, rfl⟩

end Sys2Proof.Machine
end

section
/-!
PROOF. RESET (70_reset_and_hazards.md R280, R281), which operation may emit which event (R299), and what an operation does
to the serial writer, with the operations that are stuck (R290, 60_exceptions.md R261).
-/

namespace Sys2Proof.Machine

/-! RESET. -/

/-- A decoder after RESET is not connected, holds no partial frame and no written payload cell. -/
theorem afterReset_blank (seed : Nat) : (FD.afterReset seed).conn = false ∧ (FD.afterReset seed).hdrCnt = 0 ∧
    (FD.afterReset seed).payCnt = 0 ∧ ∀ a, (FD.afterReset seed).pay.read a = none :=
  ⟨rfl, rfl, rfl, read_nil⟩

/-- Settles O4: each decoder that RESET replaces is blank, and of the rest only the encoder of the whole block is reset. -/
theorem resetOperationZeroesState : Obligations.ResetOperationZeroesState := by
  constructor
  · intro s
    refine ⟨_, exec_of_execNext .blockReset, resetAllFds_length .., fun fd hfd => ?_, rfl, read_nil, read_nil,
      rfl, rfl, rfl, rfl, rfl, rfl⟩
    obtain ⟨seed, rfl⟩ := mem_resetAllFds hfd
    exact afterReset_blank seed
  · intro s src hsrc
    obtain ⟨fd, hfd⟩ := fdAt_of_lt hsrc
    obtain ⟨hconn, hhdr, hpayCnt, hpay⟩ := afterReset_blank s.draws
    exact ⟨_, FD.afterReset s.draws, exec_of_execNext (.decoderReset hfd), rfl, hconn, hhdr, hpayCnt, hpay,
      rfl, rfl, rfl, rfl, rfl, rfl, rfl⟩

/-! The origin of events. -/

/-- In the state `s` the operation `i` is a byte that completes the frame which the decoder `fd` is receiving. -/
def CompletingByte (i : Instr) (s : State) (fd : FD) : Prop :=
  ∃ src b, i = .fdByte src b ∧ s.fdAt src = some fd ∧ Completes fd b

/-- The operation `i` may emit the event in the state `s` (40_frame_decoder.md R134, R135, 41_link_events.md R171,
43_wire_encoder.md R218, 44_dataflow.md R240). -/
def Event.MayComeFrom (i : Instr) (s : State) : Event → Prop
  | .frameDone _ _ _ => ∃ fd, CompletingByte i s fd
  | .pixels addr _ _ =>
    (∃ src len, i = .setPixels src addr len) ∨ ∃ fd, CompletingByte i s fd ∧ fd.hdrCmd = 1 ∧ fd.hdrAddr = addr
  | .closed => ∃ src, i = .fdClose src
  | .serialWrite _ _ =>
    (∃ px, i = .weEncode px) ∨ (∃ src addr len, i = .setPixels src addr len) ∨
      ∃ fd, CompletingByte i s fd ∧ fd.hdrCmd = 1

/-- The event is a `FrameDone`. -/
def Event.isFrameDone : Event → Bool
  | .frameDone _ _ _ => true
  | _ => false

/-- The events `new` may all be emitted by `i` in `s`, and hold at most one `FrameDone`. -/
structure EventsOf (i : Instr) (s : State) (new : List Event) : Prop where
  origin : ∀ e ∈ new, e.MayComeFrom i s
  frameDoneOnce : (new.filter Event.isFrameDone).length ≤ 1

theorem EventsOf.nil (i : Instr) (s : State) : EventsOf i s [] :=
  ⟨nofun, Nat.zero_le 1⟩

/-- An event before others adds no `FrameDone` if it is none itself. -/
theorem EventsOf.cons {i : Instr} {s : State} {e : Event} {new : List Event} (h : EventsOf i s new)
    (he : e.MayComeFrom i s) (hother : e.isFrameDone = false) : EventsOf i s (e :: new) where
  origin := List.forall_mem_cons.mpr ⟨he, h.origin⟩
  frameDoneOnce := by
    rw [List.filter_cons_of_neg (by simp [hother])]
    exact h.frameDoneOnce

/-- After the `FrameDone` of a completed frame come, for command 1 only, the events of its pixels. -/
theorem eventsOf_frameEvents {i : Instr} {s : State} {fd : FD} (h : CompletingByte i s fd) (cfg : Config)
    (g : BitVec 2 → Byte → Byte) (payload : List Byte) :
    EventsOf i s (frameEvents cfg g fd.hdrAddr fd.hdrCmd payload) := by
  refine ⟨fun e he => ?_, ?_⟩
  · obtain rfl | he := List.mem_cons.mp he
    · exact ⟨fd, h⟩
    split at he
    · next hcmd =>
      obtain rfl | he := List.mem_cons.mp he
      · exact .inr ⟨fd, h, hcmd, rfl⟩
      split at he
      · obtain rfl := List.mem_singleton.mp he
        exact .inr (.inr ⟨fd, h, hcmd⟩)
      · cases he
    · cases he
  · rw [frameEvents, List.filter_cons_of_pos rfl]
    split
    · split <;> exact le_rfl
    · exact le_rfl

/-- Every operation only appends events to the trace, and only events of its own. -/
theorem ExecNext.events {i : Instr} {s t : State} (h : ExecNext i s t) :
    ∃ new, t.trace = s.trace ++ new ∧ EventsOf i s new := by
  cases h with
  | timeout | opened | byteStored | tableWritten | decoderReset | blockReset | commandIgnored =>
    exact ⟨[], (List.append_nil _).symm, .nil ..⟩
  | closed => exact ⟨_, rfl, (EventsOf.nil ..).cons ⟨_, rfl⟩ rfl⟩
  | encoded => exact ⟨_, rfl, (EventsOf.nil ..).cons (.inl ⟨_, rfl⟩) rfl⟩
  | pixelsIgnored => exact ⟨_, rfl, (EventsOf.nil ..).cons (.inl ⟨_, _, rfl⟩) rfl⟩
  | pixelsEncoded =>
    refine ⟨_, List.append_assoc .., .cons (.cons (.nil ..) ?_ rfl) (.inl ⟨_, _, rfl⟩) rfl⟩
    exact .inr (.inl ⟨_, _, _, rfl⟩)
  | byteCompletes hfd _ hlast =>
    obtain ⟨haddr, hcmd⟩ := stored_fields hlast
    refine ⟨_, commandState_trace_eq_frameEvents _ s, ?_⟩
    rw [haddr, hcmd]
    exact eventsOf_frameEvents ⟨_, _, rfl, hfd, hlast⟩ ..

/-- Settles O46, from the origin of every new event. -/
theorem eventsComeOnlyFromTheirOperations : Obligations.EventsComeOnlyFromTheirOperations := by
  intro i s t hexec
  obtain ⟨new, htrace, horigin, honce⟩ := (execNext_iff.mp hexec).events
  refine ⟨new, htrace, fun buf len hmem => ?_, fun addr n px hmem => ?_, horigin _, fun addr cmd len hmem => ?_, honce⟩
  · obtain hencode | hpixels | ⟨fd, ⟨src, b, hi, hfd, hlast⟩, hcmd⟩ := horigin _ hmem
    · exact .inl hencode
    · exact .inr (.inl hpixels)
    · exact .inr (.inr ⟨src, b, fd, hi, hfd, hlast, hcmd⟩)
  · obtain hpixels | ⟨fd, ⟨src, b, hi, hfd, hlast⟩, hcommand⟩ := horigin _ hmem
    · exact .inl hpixels
    · exact .inr ⟨src, b, fd, hi, hfd, hlast, hcommand⟩
  · obtain ⟨fd, src, b, hi, hfd, hlast⟩ := horigin _ hmem
    exact ⟨src, b, fd, hi, hfd, hlast⟩

/-! The serial writer. -/

/-- A write that returns is one of those the writer has left. -/
theorem afterWrite_of_returns {w : SerialWriter} (h : w.returns = true) :
    w = .dutiful ∧ w.afterWrite = .dutiful ∨ ∃ n, w = .blocksAfter (n + 1) ∧ w.afterWrite = .blocksAfter n := by
  cases w with
  | dutiful => exact .inl ⟨rfl, rfl⟩
  | blocksAfter n =>
    cases n with
    | zero => cases h
    | succ n => exact .inr ⟨n, rfl, rfl⟩

/-- An operation that makes a write completes only if the write returns. -/
theorem ExecNext.returns {i : Instr} {s t : State} (h : ExecNext i s t) (hwrites : Writes i s) :
    s.writer.returns = true := by
  by_contra hstuck
  cases (exec_of_execNext h).symm.trans (exec_blocked_of_writes hwrites (by simpa using hstuck))

/-- A write takes one of the writer's, and an operation makes one write at most. -/
theorem ExecNext.writer_of_writes {i : Instr} {s t : State} (h : ExecNext i s t) (hwrites : Writes i s) :
    t.writer = s.writer.afterWrite := by
  cases h with
  | timeout | opened | closed | tableWritten | decoderReset | blockReset | commandIgnored => exact hwrites.elim
  | encoded | pixelsEncoded => rfl
  | pixelsIgnored _ haccept =>
    obtain ⟨-, haccept'⟩ := hwrites
    cases haccept.symm.trans haccept'
  | byteStored hfd _ hmore =>
    obtain ⟨fd', hfd', -, hlast, -⟩ := hwrites
    obtain rfl := Option.some.inj (hfd.symm.trans hfd')
    exact absurd hlast hmore
  | byteCompletes hfd _ hlast =>
    obtain ⟨fd', hfd', -, -, hcmd, haccept⟩ := hwrites
    obtain rfl := Option.some.inj (hfd.symm.trans hfd')
    obtain ⟨haddr', hcmd'⟩ := stored_fields hlast
    exact (encodeEffect_commandState (hcmd'.trans hcmd) (haddr' ▸ haccept)).writer

/-- An operation that makes no write leaves the writer alone. -/
theorem ExecNext.writer_of_not_writes {i : Instr} {s t : State} (h : ExecNext i s t) (hquiet : ¬ Writes i s) :
    t.writer = s.writer := by
  cases h with
  | timeout | opened | byteStored | closed | tableWritten | decoderReset | blockReset | pixelsIgnored
  | commandIgnored => rfl
  | encoded hn => exact absurd hn hquiet
  | pixelsEncoded hfd haccept => exact absurd ⟨fdAt_lt hfd, haccept⟩ hquiet
  | byteCompletes hfd hconn hlast hwriter =>
    refine (ExecNext.byteCompletes hfd hconn hlast hwriter).fdByte_noEncode hfd (fun hdispatch => ?_) |>.writer
    exact hquiet ⟨_, hfd, hconn, hdispatch⟩

/-! A handler that never returns. -/

/-- The operations are those of a handler that hangs after some that the block admits (60_exceptions.md R261). -/
def ComesToHang (ops : List WeOp) : Prop :=
  ∃ pre post, ops = pre ++ .hang :: post ∧ ∀ op ∈ pre, op.Admitted

/-- The outcome of a handler that comes to hang in `s`: stuck, on the hanging itself if every write returns. -/
def StuckOnHandler (s : State) (r : Result) : Prop :=
  ∃ f, r = .fault f ∧ (s.writer = .dutiful → f = .handlerBlocked)

theorem StuckOnHandler.andThen {s : State} {r : Result} (h : StuckOnHandler s r) (k : State → Result) :
    StuckOnHandler s (r.andThen k) := by
  obtain ⟨f, rfl, hf⟩ := h
  exact ⟨f, rfl, hf⟩

/-- SET_PIXELS is stuck with its handler. -/
theorem setPixelsWith_stuckOnHandler {h : Handler} {src : Nat} {fd : FD} {addr : Byte} {s : State}
    (hfd : s.fdAt src = some fd) (hhang : ∀ n px, ComesToHang (h addr n px s.we)) (len : BitVec 16) :
    StuckOnHandler s (setPixelsWith h src addr len s) := by
  obtain ⟨pre, post, hops, hpre⟩ := hhang (pixelCount len) (fd.pixels (pixelCount len))
  rw [setPixelsWith, onFd_of_some hfd]
  dsimp only
  rw [runHandler, emit_we, hops]
  exact runWeOps_hang hpre

/-- The completion of a command-1 frame is stuck with its handler. -/
theorem completeFrame_stuckOnHandler {h : Handler} {src : Nat} {fd : FD} {s : State} (hfd : s.fdAt src = some fd)
    (hcmd : fd.hdrCmd = Config.cmdSetPixels) (hhang : ∀ n px, ComesToHang (h fd.hdrAddr n px s.we)) :
    StuckOnHandler s (completeFrame h src s) := by
  rw [completeFrame, onFd_of_some hfd, runCommand, if_pos hcmd]
  exact StuckOnHandler.andThen (setPixelsWith_stuckOnHandler (s := s.emit _) hfd hhang _) _

/-- The byte that completes a command-1 frame is stuck with its handler (60_exceptions.md R261). -/
theorem fdByteWith_stuckOnHandler {h : Handler} {src : Nat} {fd : FD} {b : Byte} {s : State}
    (hfd : s.fdAt src = some fd) (hconn : fd.conn = true) (hlast : Completes fd b)
    (hcmd : fd.hdrCmd = Config.cmdSetPixels) (hhang : ∀ n px, ComesToHang (h fd.hdrAddr n px s.we)) :
    StuckOnHandler s (fdByteWith h src b s) := by
  obtain ⟨hcompletes, -⟩ := fdByteWith_split (b := b) h hfd hconn
  obtain ⟨haddr', hcmd'⟩ := stored_fields hlast
  rw [hcompletes hlast]
  exact completeFrame_stuckOnHandler (s := s.setFd src (fd.stored b)) (fdAt_setFd_same hfd) (hcmd'.trans hcmd)
    (haddr' ▸ hhang)

/-- Settles O48: a stuck operation has no successor to run on from, and one that completes has the writer's next write. -/
theorem blockedWriteMakesNoFurtherStep : Obligations.BlockedWriteMakesNoFurtherStep := by
  refine ⟨fun i rest s hwrites hwriter => ?_, fun h src fd b s hfd hconn hlast hcmd hhang => ?_,
    fun i s t hexec => ⟨fun hwrites => ?_, (execNext_iff.mp hexec).writer_of_not_writes⟩⟩
  · have hblocked := exec_blocked_of_writes hwrites (returns_eq_false.mpr hwriter)
    exact ⟨hblocked, by rw [runOps, hblocked, andThen_fault]⟩
  · obtain ⟨f, hstuck, hhandler⟩ := fdByteWith_stuckOnHandler hfd hconn hlast hcmd hhang
    exact ⟨f, hstuck, fun rest => by rw [runBytesWith, hstuck, andThen_fault], hhandler⟩
  · have hnext := execNext_iff.mp hexec
    rw [hnext.writer_of_writes hwrites]
    exact afterWrite_of_returns (hnext.returns hwrites)

end Sys2Proof.Machine
end
